-- ==== Sys2Proof/Word.lean ====
section
/-! DEFINITION. The word types of the machine (00_scope.md R9, R14, R16): everything the spec treats as bits
has the width the spec gives it. -/

namespace Sys2Proof

/-- A register value, the pc, an address or an instruction word: 32 bits (R9, R16). -/
abbrev Word := BitVec 32

/-- One cell of memory: 8 bits (R9, R31). -/
abbrev Byte := BitVec 8

/-- A register index: the 5-bit fields `rd`, `rs1`, `rs2` (R9, R21). -/
abbrev RegIdx := BitVec 5

end Sys2Proof
end

