-- ==== Sys2Proof/Syntax.lean ====
section
/-! DEFINITION. The instruction set as syntax: the 39 operations of 00_scope.md R2, each with the fields its
format sets (30_encoding.md R72 to R78, R91) and no other; the operation tags and the Instruction record of
R90; why a word has no mapping (R104); and the shape of a row of the opcode table (R108). -/

namespace Sys2Proof

/-- A decoded instruction, one constructor per row of the opcode table. A field the operation already
determines (`funct3` of every operation but JALR, `funct7` of ADD and SRL) is not repeated; a field the format
does not set is absent (R91; 93_implementation_defined.md U1, U13). Immediates are the raw packed bits `imm` of
R74 to R78, at their own width, except that LUI and AUIPC carry `raw[31:12]` and SRLI and SRAI the five bits
of R82. -/
inductive Instr where
  /-- R220, U format. -/
  | lui (rd : RegIdx) (imm20 : BitVec 20)
  /-- R221, U format. -/
  | auipc (rd : RegIdx) (imm20 : BitVec 20)
  /-- R141, J format: `imm` is the 21-bit byte offset, bit 0 zero. -/
  | jal (rd : RegIdx) (imm : BitVec 21)
  /-- R142, I format: `funct3` is carried and never examined (R97). -/
  | jalr (funct3 : BitVec 3) (rd rs1 : RegIdx) (imm : BitVec 12)
  /-- R144, B format: `imm` is the 13-bit byte offset, bit 0 zero. -/
  | beq (rs1 rs2 : RegIdx) (imm : BitVec 13)
  /-- R145. -/
  | bne (rs1 rs2 : RegIdx) (imm : BitVec 13)
  /-- R146. -/
  | blt (rs1 rs2 : RegIdx) (imm : BitVec 13)
  /-- R147. -/
  | bge (rs1 rs2 : RegIdx) (imm : BitVec 13)
  /-- R148. -/
  | bltu (rs1 rs2 : RegIdx) (imm : BitVec 13)
  /-- R149. -/
  | bgeu (rs1 rs2 : RegIdx) (imm : BitVec 13)
  /-- R201, I format. -/
  | lb (rd rs1 : RegIdx) (imm : BitVec 12)
  /-- R202. -/
  | lh (rd rs1 : RegIdx) (imm : BitVec 12)
  /-- R203. -/
  | lw (rd rs1 : RegIdx) (imm : BitVec 12)
  /-- R204. -/
  | lbu (rd rs1 : RegIdx) (imm : BitVec 12)
  /-- R205. -/
  | lhu (rd rs1 : RegIdx) (imm : BitVec 12)
  /-- R211, S format: base `rs1`, data `rs2`. -/
  | sb (rs1 rs2 : RegIdx) (imm : BitVec 12)
  /-- R212. -/
  | sh (rs1 rs2 : RegIdx) (imm : BitVec 12)
  /-- R213. -/
  | sw (rs1 rs2 : RegIdx) (imm : BitVec 12)
  /-- R161, I format. -/
  | addi (rd rs1 : RegIdx) (imm : BitVec 12)
  /-- R162. -/
  | slti (rd rs1 : RegIdx) (imm : BitVec 12)
  /-- R163. -/
  | sltiu (rd rs1 : RegIdx) (imm : BitVec 12)
  /-- R164. -/
  | xori (rd rs1 : RegIdx) (imm : BitVec 12)
  /-- R165. -/
  | ori (rd rs1 : RegIdx) (imm : BitVec 12)
  /-- R166. -/
  | andi (rd rs1 : RegIdx) (imm : BitVec 12)
  /-- R168: `imm` is the unmasked 12 bits (R82). -/
  | slli (rd rs1 : RegIdx) (imm : BitVec 12)
  /-- R169: the immediate is already its low five bits (R82). -/
  | srli (rd rs1 : RegIdx) (shamt : BitVec 5)
  /-- R170: as SRLI; the I format sets no `funct7` (R74, R91). -/
  | srai (rd rs1 : RegIdx) (shamt : BitVec 5)
  /-- R181, R format, `funct7 = 0`. -/
  | add (rd rs1 rs2 : RegIdx)
  /-- R182: `funct7` is any nonzero value. -/
  | sub (funct7 : BitVec 7) (rd rs1 rs2 : RegIdx)
  /-- R183: `funct7` is carried and not examined; so for the five below that carry it, but SRA. -/
  | sll (funct7 : BitVec 7) (rd rs1 rs2 : RegIdx)
  /-- R184. -/
  | slt (funct7 : BitVec 7) (rd rs1 rs2 : RegIdx)
  /-- R185. -/
  | sltu (funct7 : BitVec 7) (rd rs1 rs2 : RegIdx)
  /-- R186. -/
  | xor (funct7 : BitVec 7) (rd rs1 rs2 : RegIdx)
  /-- R187, `funct7 = 0`. -/
  | srl (rd rs1 rs2 : RegIdx)
  /-- R188: `funct7` is any nonzero value. -/
  | sra (funct7 : BitVec 7) (rd rs1 rs2 : RegIdx)
  /-- R189. -/
  | or (funct7 : BitVec 7) (rd rs1 rs2 : RegIdx)
  /-- R190. -/
  | and (funct7 : BitVec 7) (rd rs1 rs2 : RegIdx)
  /-- R230, I format: the fields are unpacked and never read (R103). -/
  | fence (rd rs1 : RegIdx) (imm : BitVec 12)
  /-- R231, as FENCE. -/
  | fencei (rd rs1 : RegIdx) (imm : BitVec 12)
  deriving DecidableEq, Repr

/-- The operation tag of R90: the 39 tags of R2 and `INVALID` (R104; 90_conflicts.md C9). -/
inductive Operation where
  | LUI | AUIPC | JAL | JALR
  | BEQ | BNE | BLT | BGE | BLTU | BGEU
  | LB | LH | LW | LBU | LHU
  | SB | SH | SW
  | ADDI | SLTI | SLTIU | XORI | ORI | ANDI | SLLI | SRLI | SRAI
  | ADD | SUB | SLL | SLT | SLTU | XOR | SRL | SRA | OR | AND
  | FENCE | FENCEI
  | INVALID
  deriving DecidableEq, Repr

/-- The Instruction record, the decoder's output (R90). A field that the format does not set is `none`: "unused
fields are left in an unspecified/default state and must never be read" (R91). `simm` is the two's-complement
word of the sign-extended immediate. -/
structure Record where
  operation : Operation
  funct3 : Option (BitVec 3)
  funct7 : Option (BitVec 7)
  rd : Option RegIdx
  rs1 : Option RegIdx
  rs2 : Option RegIdx
  imm : Option Word
  simm : Option Word
  deriving DecidableEq, Repr

/-- Why bytes are no instruction, by name (R104). Every reason but `tooShort` stands for an `INVALID` record. -/
inductive DecodeReject where
  /-- `raw[6:0]` is none of the ten opcodes of R95. -/
  | noSuchOpcode (opcode : BitVec 7)
  /-- BRANCH with `funct3` 2 or 3 (R98). -/
  | branchFunct3 (funct3 : BitVec 3)
  /-- LOAD with `funct3` 3, 6 or 7 (R99). -/
  | loadFunct3 (funct3 : BitVec 3)
  /-- STORE with `funct3` 3 to 7 (R100). -/
  | storeFunct3 (funct3 : BitVec 3)
  /-- FENCE group with `funct3` 2 to 7 (R103). -/
  | fenceFunct3 (funct3 : BitVec 3)
  /-- Fewer than the four bytes every instruction has (R70). The engine never decodes so few. -/
  | tooShort (bytes : Nat)
  deriving DecidableEq, Repr

/-- The `constraint` of a row of the opcode table, on `raw[31:25]` (R108). -/
inductive Funct7Constraint where
  | unconstrained
  | isZero
  | isNonzero
  deriving DecidableEq, Repr

/-- A row of the opcode table: `matchWord` is the canonical word with every operand field zero (R108). -/
structure Row where
  operation : Operation
  matchWord : Word
  mask : Word
  constraint : Funct7Constraint
  deriving DecidableEq, Repr

end Sys2Proof
end

