-- ==== Sys2Proof/WellFormed.lean ====
section
/-! DEFINITION. Which instructions the decoder can produce: the conditions on fields that their widths do not
already say. Everything else is well formed by its type. -/

namespace Sys2Proof

/-- B and J immediates have bit 0 zero (30_encoding.md R76, R78); SUB and SRA have a nonzero `funct7`
(R102). -/
def Instr.wf : Instr → Bool
  | .jal _ imm => !imm.getLsbD 0
  | .beq _ _ imm => !imm.getLsbD 0
  | .bne _ _ imm => !imm.getLsbD 0
  | .blt _ _ imm => !imm.getLsbD 0
  | .bge _ _ imm => !imm.getLsbD 0
  | .bltu _ _ imm => !imm.getLsbD 0
  | .bgeu _ _ imm => !imm.getLsbD 0
  | .sub funct7 _ _ _ => funct7 != 0#7
  | .sra funct7 _ _ _ => funct7 != 0#7
  | .lui _ _ => true
  | .auipc _ _ => true
  | .jalr _ _ _ _ => true
  | .lb _ _ _ => true
  | .lh _ _ _ => true
  | .lw _ _ _ => true
  | .lbu _ _ _ => true
  | .lhu _ _ _ => true
  | .sb _ _ _ => true
  | .sh _ _ _ => true
  | .sw _ _ _ => true
  | .addi _ _ _ => true
  | .slti _ _ _ => true
  | .sltiu _ _ _ => true
  | .xori _ _ _ => true
  | .ori _ _ _ => true
  | .andi _ _ _ => true
  | .slli _ _ _ => true
  | .srli _ _ _ => true
  | .srai _ _ _ => true
  | .add _ _ _ => true
  | .sll _ _ _ _ => true
  | .slt _ _ _ _ => true
  | .sltu _ _ _ _ => true
  | .xor _ _ _ _ => true
  | .srl _ _ _ => true
  | .or _ _ _ _ => true
  | .and _ _ _ _ => true
  | .fence _ _ _ => true
  | .fencei _ _ _ => true

end Sys2Proof
end

