-- ==== Sys2Proof/Decode.lean ====
section
/-! DEFINITION. The decoder of 30_encoding.md (R70 to R104), total on every word and on any bytes, rejecting by
name; the Instruction record of R90; then the encoder, written from the formats of R72 to R78; then the opcode
table of R108 as mask and match words. -/

namespace Sys2Proof

/-! ### Field extraction (R71) -/

/-- `opcode(raw) = raw[6:0]`. -/
def opcodeOf (raw : Word) : BitVec 7 := raw.extractLsb' 0 7
/-- `rd(raw) = raw[11:7]`. -/
def rdOf (raw : Word) : RegIdx := raw.extractLsb' 7 5
/-- `funct3(raw) = raw[14:12]`. -/
def funct3Of (raw : Word) : BitVec 3 := raw.extractLsb' 12 3
/-- `rs1(raw) = raw[19:15]`. -/
def rs1Of (raw : Word) : RegIdx := raw.extractLsb' 15 5
/-- `rs2(raw) = raw[24:20]`. -/
def rs2Of (raw : Word) : RegIdx := raw.extractLsb' 20 5
/-- `funct7(raw) = raw[31:25]`. -/
def funct7Of (raw : Word) : BitVec 7 := raw.extractLsb' 25 7

/-! ### Immediates, the raw packed bits of each format -/

/-- I format: `imm = raw[31:20]` (R74). -/
def immIOf (raw : Word) : BitVec 12 := raw.extractLsb' 20 12
/-- S format: `imm = raw[31:25] || raw[11:7]` (R75). -/
def immSOf (raw : Word) : BitVec 12 := raw.extractLsb' 25 7 ++ raw.extractLsb' 7 5
/-- B format: `imm = raw[31] || raw[7] || raw[30:25] || raw[11:8] || 0` (R76). -/
def immBOf (raw : Word) : BitVec 13 :=
  raw.extractLsb' 31 1 ++ raw.extractLsb' 7 1 ++ raw.extractLsb' 25 6 ++ raw.extractLsb' 8 4 ++ 0#1
/-- U format: the 20 bits `raw[31:12]`; `imm` is these shifted left by 12 (R77). -/
def imm20Of (raw : Word) : BitVec 20 := raw.extractLsb' 12 20
/-- J format: `imm = raw[31] || raw[19:12] || raw[20] || raw[30:21] || 0` (R78). -/
def immJOf (raw : Word) : BitVec 21 :=
  raw.extractLsb' 31 1 ++ raw.extractLsb' 12 8 ++ raw.extractLsb' 20 1 ++ raw.extractLsb' 21 10 ++ 0#1
/-- The masked immediate of SRLI and SRAI: `raw[24:20]` (R82). -/
def shamtOf (raw : Word) : BitVec 5 := raw.extractLsb' 20 5

/-! ### Extension to 32 bits (R15, R80) -/

/-- `sext_N(v)`, for a field of `N` bits: the sign bit copied into the higher bits. -/
def sext {n : Nat} (v : BitVec n) : Word := v.signExtend 32
/-- `zext_N(v)`, for a field of `N` bits. -/
def zext {n : Nat} (v : BitVec n) : Word := v.setWidth 32
/-- The U immediate: `imm[31:12] = raw[31:12]`, `imm[11:0] = 0` (R77). -/
def immU (imm20 : BitVec 20) : Word := imm20 ++ 0#12

/-! ### Primary opcodes (R95). PRESUMED but for ARITH_IMM and FENCE: 93_implementation_defined.md G1 to G8,
log entry 9. -/

def opLUI : BitVec 7 := 0x37#7
def opAUIPC : BitVec 7 := 0x17#7
def opJAL : BitVec 7 := 0x6F#7
def opJALR : BitVec 7 := 0x67#7
def opBRANCH : BitVec 7 := 0x63#7
def opLOAD : BitVec 7 := 0x03#7
def opSTORE : BitVec 7 := 0x23#7
def opARITHIMM : BitVec 7 := 0x13#7
def opARITH : BitVec 7 := 0x33#7
def opFENCE : BitVec 7 := 0x0F#7

/-! ### Classification inside a group (R98 to R103) -/

/-- Group BRANCH (R98). -/
def decodeBranch (raw : Word) : Except DecodeReject Instr :=
  if funct3Of raw = 0#3 then .ok (.beq (rs1Of raw) (rs2Of raw) (immBOf raw))
  else if funct3Of raw = 1#3 then .ok (.bne (rs1Of raw) (rs2Of raw) (immBOf raw))
  else if funct3Of raw = 4#3 then .ok (.blt (rs1Of raw) (rs2Of raw) (immBOf raw))
  else if funct3Of raw = 5#3 then .ok (.bge (rs1Of raw) (rs2Of raw) (immBOf raw))
  else if funct3Of raw = 6#3 then .ok (.bltu (rs1Of raw) (rs2Of raw) (immBOf raw))
  else if funct3Of raw = 7#3 then .ok (.bgeu (rs1Of raw) (rs2Of raw) (immBOf raw))
  else .error (.branchFunct3 (funct3Of raw))

/-- Group LOAD (R99). -/
def decodeLoad (raw : Word) : Except DecodeReject Instr :=
  if funct3Of raw = 0#3 then .ok (.lb (rdOf raw) (rs1Of raw) (immIOf raw))
  else if funct3Of raw = 1#3 then .ok (.lh (rdOf raw) (rs1Of raw) (immIOf raw))
  else if funct3Of raw = 2#3 then .ok (.lw (rdOf raw) (rs1Of raw) (immIOf raw))
  else if funct3Of raw = 4#3 then .ok (.lbu (rdOf raw) (rs1Of raw) (immIOf raw))
  else if funct3Of raw = 5#3 then .ok (.lhu (rdOf raw) (rs1Of raw) (immIOf raw))
  else .error (.loadFunct3 (funct3Of raw))

/-- Group STORE (R100). -/
def decodeStore (raw : Word) : Except DecodeReject Instr :=
  if funct3Of raw = 0#3 then .ok (.sb (rs1Of raw) (rs2Of raw) (immSOf raw))
  else if funct3Of raw = 1#3 then .ok (.sh (rs1Of raw) (rs2Of raw) (immSOf raw))
  else if funct3Of raw = 2#3 then .ok (.sw (rs1Of raw) (rs2Of raw) (immSOf raw))
  else .error (.storeFunct3 (funct3Of raw))

/-- Group ARITH_IMM (R101, R82): `funct3 = 5` splits on `funct7`, zero or nonzero; no word is rejected. -/
def decodeArithImm (raw : Word) : Instr :=
  if funct3Of raw = 0#3 then .addi (rdOf raw) (rs1Of raw) (immIOf raw)
  else if funct3Of raw = 1#3 then .slli (rdOf raw) (rs1Of raw) (immIOf raw)
  else if funct3Of raw = 2#3 then .slti (rdOf raw) (rs1Of raw) (immIOf raw)
  else if funct3Of raw = 3#3 then .sltiu (rdOf raw) (rs1Of raw) (immIOf raw)
  else if funct3Of raw = 4#3 then .xori (rdOf raw) (rs1Of raw) (immIOf raw)
  else if funct3Of raw = 5#3 then
    if funct7Of raw = 0#7 then .srli (rdOf raw) (rs1Of raw) (shamtOf raw)
    else .srai (rdOf raw) (rs1Of raw) (shamtOf raw)
  else if funct3Of raw = 6#3 then .ori (rdOf raw) (rs1Of raw) (immIOf raw)
  else .andi (rdOf raw) (rs1Of raw) (immIOf raw)

/-- Group ARITH (R102): `funct3` 0 and 5 split on `funct7`, zero or nonzero; elsewhere `funct7` is not examined;
no word is rejected. -/
def decodeArith (raw : Word) : Instr :=
  if funct3Of raw = 0#3 then
    if funct7Of raw = 0#7 then .add (rdOf raw) (rs1Of raw) (rs2Of raw)
    else .sub (funct7Of raw) (rdOf raw) (rs1Of raw) (rs2Of raw)
  else if funct3Of raw = 1#3 then .sll (funct7Of raw) (rdOf raw) (rs1Of raw) (rs2Of raw)
  else if funct3Of raw = 2#3 then .slt (funct7Of raw) (rdOf raw) (rs1Of raw) (rs2Of raw)
  else if funct3Of raw = 3#3 then .sltu (funct7Of raw) (rdOf raw) (rs1Of raw) (rs2Of raw)
  else if funct3Of raw = 4#3 then .xor (funct7Of raw) (rdOf raw) (rs1Of raw) (rs2Of raw)
  else if funct3Of raw = 5#3 then
    if funct7Of raw = 0#7 then .srl (rdOf raw) (rs1Of raw) (rs2Of raw)
    else .sra (funct7Of raw) (rdOf raw) (rs1Of raw) (rs2Of raw)
  else if funct3Of raw = 6#3 then .or (funct7Of raw) (rdOf raw) (rs1Of raw) (rs2Of raw)
  else .and (funct7Of raw) (rdOf raw) (rs1Of raw) (rs2Of raw)

/-- Group FENCE (R103). -/
def decodeFence (raw : Word) : Except DecodeReject Instr :=
  if funct3Of raw = 0#3 then .ok (.fence (rdOf raw) (rs1Of raw) (immIOf raw))
  else if funct3Of raw = 1#3 then .ok (.fencei (rdOf raw) (rs1Of raw) (immIOf raw))
  else .error (.fenceFunct3 (funct3Of raw))

/-- The decoder (R92, R94 to R104): first the opcode group, then the operation inside it. -/
def decode (raw : Word) : Except DecodeReject Instr :=
  if opcodeOf raw = opLUI then .ok (.lui (rdOf raw) (imm20Of raw))
  else if opcodeOf raw = opAUIPC then .ok (.auipc (rdOf raw) (imm20Of raw))
  else if opcodeOf raw = opJAL then .ok (.jal (rdOf raw) (immJOf raw))
  else if opcodeOf raw = opJALR then .ok (.jalr (funct3Of raw) (rdOf raw) (rs1Of raw) (immIOf raw))
  else if opcodeOf raw = opBRANCH then decodeBranch raw
  else if opcodeOf raw = opLOAD then decodeLoad raw
  else if opcodeOf raw = opSTORE then decodeStore raw
  else if opcodeOf raw = opARITHIMM then .ok (decodeArithImm raw)
  else if opcodeOf raw = opARITH then .ok (decodeArith raw)
  else if opcodeOf raw = opFENCE then decodeFence raw
  else .error (.noSuchOpcode (opcodeOf raw))

/-! ### Bytes (R41, R70) -/

/-- The little-endian word of four bytes, the first at the lowest address (R41). -/
def wordOfBytes (b0 b1 b2 b3 : Byte) : Word := b3 ++ b2 ++ b1 ++ b0

/-- The four bytes of a word, lowest address first (R40). -/
def bytesOfWord (raw : Word) : List Byte :=
  [raw.extractLsb' 0 8, raw.extractLsb' 8 8, raw.extractLsb' 16 8, raw.extractLsb' 24 8]

/-- The decoder on any bytes: one instruction and the bytes after it. -/
def decodeBytes : List Byte → Except DecodeReject (Instr × List Byte)
  | b0 :: b1 :: b2 :: b3 :: rest => (decode (wordOfBytes b0 b1 b2 b3)).map (·, rest)
  | short => .error (.tooShort short.length)

/-- The instruction this decoder reads from a word of the opcode table: every row has `nbits = 32` (R70); the bits
above `nbits` are 0; the bytes are laid out as the hardware stores them. -/
def decodeTableWord (nbits w : Nat) : Option Instr :=
  match decodeBytes (bytesOfWord (BitVec.ofNat 32 (w % 2 ^ nbits))) with
  | .ok (i, _) => some i
  | .error _ => none

/-! ### The Instruction record (R90, R91) -/

/-- The operation tag of an instruction. -/
def Instr.operation : Instr → Operation
  | .lui _ _ => .LUI
  | .auipc _ _ => .AUIPC
  | .jal _ _ => .JAL
  | .jalr _ _ _ _ => .JALR
  | .beq _ _ _ => .BEQ
  | .bne _ _ _ => .BNE
  | .blt _ _ _ => .BLT
  | .bge _ _ _ => .BGE
  | .bltu _ _ _ => .BLTU
  | .bgeu _ _ _ => .BGEU
  | .lb _ _ _ => .LB
  | .lh _ _ _ => .LH
  | .lw _ _ _ => .LW
  | .lbu _ _ _ => .LBU
  | .lhu _ _ _ => .LHU
  | .sb _ _ _ => .SB
  | .sh _ _ _ => .SH
  | .sw _ _ _ => .SW
  | .addi _ _ _ => .ADDI
  | .slti _ _ _ => .SLTI
  | .sltiu _ _ _ => .SLTIU
  | .xori _ _ _ => .XORI
  | .ori _ _ _ => .ORI
  | .andi _ _ _ => .ANDI
  | .slli _ _ _ => .SLLI
  | .srli _ _ _ => .SRLI
  | .srai _ _ _ => .SRAI
  | .add _ _ _ => .ADD
  | .sub _ _ _ _ => .SUB
  | .sll _ _ _ _ => .SLL
  | .slt _ _ _ _ => .SLT
  | .sltu _ _ _ _ => .SLTU
  | .xor _ _ _ _ => .XOR
  | .srl _ _ _ => .SRL
  | .sra _ _ _ _ => .SRA
  | .or _ _ _ _ => .OR
  | .and _ _ _ _ => .AND
  | .fence _ _ _ => .FENCE
  | .fencei _ _ _ => .FENCEI

/-- R format (R73): no immediate. -/
def recordR (op : Operation) (f3 : BitVec 3) (f7 : BitVec 7) (rd rs1 rs2 : RegIdx) : Record :=
  ⟨op, some f3, some f7, some rd, some rs1, some rs2, none, none⟩
/-- I format (R74). -/
def recordI (op : Operation) (f3 : BitVec 3) (rd rs1 : RegIdx) (imm : BitVec 12) : Record :=
  ⟨op, some f3, none, some rd, some rs1, none, some (zext imm), some (sext imm)⟩
/-- S format (R75). -/
def recordS (op : Operation) (f3 : BitVec 3) (rs1 rs2 : RegIdx) (imm : BitVec 12) : Record :=
  ⟨op, some f3, none, none, some rs1, some rs2, some (zext imm), some (sext imm)⟩
/-- B format (R76). -/
def recordB (op : Operation) (f3 : BitVec 3) (rs1 rs2 : RegIdx) (imm : BitVec 13) : Record :=
  ⟨op, some f3, none, none, some rs1, some rs2, some (zext imm), some (sext imm)⟩
/-- U format (R77): `simm = imm`. -/
def recordU (op : Operation) (rd : RegIdx) (imm20 : BitVec 20) : Record :=
  ⟨op, none, none, some rd, none, none, some (immU imm20), some (immU imm20)⟩
/-- J format (R78). -/
def recordJ (op : Operation) (rd : RegIdx) (imm : BitVec 21) : Record :=
  ⟨op, none, none, some rd, none, none, some (zext imm), some (sext imm)⟩

/-- The record of a decoded instruction. -/
def Instr.toRecord : Instr → Record
  | .lui rd imm => recordU .LUI rd imm
  | .auipc rd imm => recordU .AUIPC rd imm
  | .jal rd imm => recordJ .JAL rd imm
  | .jalr f3 rd rs1 imm => recordI .JALR f3 rd rs1 imm
  | .beq rs1 rs2 imm => recordB .BEQ 0#3 rs1 rs2 imm
  | .bne rs1 rs2 imm => recordB .BNE 1#3 rs1 rs2 imm
  | .blt rs1 rs2 imm => recordB .BLT 4#3 rs1 rs2 imm
  | .bge rs1 rs2 imm => recordB .BGE 5#3 rs1 rs2 imm
  | .bltu rs1 rs2 imm => recordB .BLTU 6#3 rs1 rs2 imm
  | .bgeu rs1 rs2 imm => recordB .BGEU 7#3 rs1 rs2 imm
  | .lb rd rs1 imm => recordI .LB 0#3 rd rs1 imm
  | .lh rd rs1 imm => recordI .LH 1#3 rd rs1 imm
  | .lw rd rs1 imm => recordI .LW 2#3 rd rs1 imm
  | .lbu rd rs1 imm => recordI .LBU 4#3 rd rs1 imm
  | .lhu rd rs1 imm => recordI .LHU 5#3 rd rs1 imm
  | .sb rs1 rs2 imm => recordS .SB 0#3 rs1 rs2 imm
  | .sh rs1 rs2 imm => recordS .SH 1#3 rs1 rs2 imm
  | .sw rs1 rs2 imm => recordS .SW 2#3 rs1 rs2 imm
  | .addi rd rs1 imm => recordI .ADDI 0#3 rd rs1 imm
  | .slti rd rs1 imm => recordI .SLTI 2#3 rd rs1 imm
  | .sltiu rd rs1 imm => recordI .SLTIU 3#3 rd rs1 imm
  | .xori rd rs1 imm => recordI .XORI 4#3 rd rs1 imm
  | .ori rd rs1 imm => recordI .ORI 6#3 rd rs1 imm
  | .andi rd rs1 imm => recordI .ANDI 7#3 rd rs1 imm
  | .slli rd rs1 imm => recordI .SLLI 1#3 rd rs1 imm
  | .srli rd rs1 shamt => recordI .SRLI 5#3 rd rs1 (shamt.setWidth 12)
  | .srai rd rs1 shamt => recordI .SRAI 5#3 rd rs1 (shamt.setWidth 12)
  | .add rd rs1 rs2 => recordR .ADD 0#3 0#7 rd rs1 rs2
  | .sub f7 rd rs1 rs2 => recordR .SUB 0#3 f7 rd rs1 rs2
  | .sll f7 rd rs1 rs2 => recordR .SLL 1#3 f7 rd rs1 rs2
  | .slt f7 rd rs1 rs2 => recordR .SLT 2#3 f7 rd rs1 rs2
  | .sltu f7 rd rs1 rs2 => recordR .SLTU 3#3 f7 rd rs1 rs2
  | .xor f7 rd rs1 rs2 => recordR .XOR 4#3 f7 rd rs1 rs2
  | .srl rd rs1 rs2 => recordR .SRL 5#3 0#7 rd rs1 rs2
  | .sra f7 rd rs1 rs2 => recordR .SRA 5#3 f7 rd rs1 rs2
  | .or f7 rd rs1 rs2 => recordR .OR 6#3 f7 rd rs1 rs2
  | .and f7 rd rs1 rs2 => recordR .AND 7#3 f7 rd rs1 rs2
  | .fence rd rs1 imm => recordI .FENCE 0#3 rd rs1 imm
  | .fencei rd rs1 imm => recordI .FENCEI 1#3 rd rs1 imm

/-- The "default/empty Instruction" of a decoder fallthrough: no field but `operation` is set (R91, R104). -/
def Record.invalid : Record := ⟨.INVALID, none, none, none, none, none, none, none⟩

/-- The decoder's output as the spec shapes it: total, one record for every word (R90, R92). -/
def decodeRecord (raw : Word) : Record :=
  match decode raw with
  | .ok i => i.toRecord
  | .error _ => Record.invalid

/-! ### The encoder: the layouts of R72, most significant field first -/

/-- R format (R73). -/
def wordR (f7 : BitVec 7) (rs2 rs1 : RegIdx) (f3 : BitVec 3) (rd : RegIdx) (op : BitVec 7) : Word :=
  f7 ++ rs2 ++ rs1 ++ f3 ++ rd ++ op
/-- I format (R74). -/
def wordI (imm : BitVec 12) (rs1 : RegIdx) (f3 : BitVec 3) (rd : RegIdx) (op : BitVec 7) : Word :=
  imm ++ rs1 ++ f3 ++ rd ++ op
/-- S format (R75): `raw[31:25] = imm[11:5]`, `raw[11:7] = imm[4:0]`. -/
def wordS (imm : BitVec 12) (rs2 rs1 : RegIdx) (f3 : BitVec 3) (op : BitVec 7) : Word :=
  imm.extractLsb' 5 7 ++ rs2 ++ rs1 ++ f3 ++ imm.extractLsb' 0 5 ++ op
/-- B format (R76): `raw[31] = imm[12]`, `raw[30:25] = imm[10:5]`, `raw[11:8] = imm[4:1]`, `raw[7] = imm[11]`. -/
def wordB (imm : BitVec 13) (rs2 rs1 : RegIdx) (f3 : BitVec 3) (op : BitVec 7) : Word :=
  imm.extractLsb' 12 1 ++ imm.extractLsb' 5 6 ++ rs2 ++ rs1 ++ f3 ++ imm.extractLsb' 1 4 ++
    imm.extractLsb' 11 1 ++ op
/-- U format (R77). -/
def wordU (imm20 : BitVec 20) (rd : RegIdx) (op : BitVec 7) : Word := imm20 ++ rd ++ op
/-- J format (R78): `raw[31] = imm[20]`, `raw[30:21] = imm[10:1]`, `raw[20] = imm[11]`, `raw[19:12] = imm[19:12]`. -/
def wordJ (imm : BitVec 21) (rd : RegIdx) (op : BitVec 7) : Word :=
  imm.extractLsb' 20 1 ++ imm.extractLsb' 1 10 ++ imm.extractLsb' 11 1 ++ imm.extractLsb' 12 8 ++ rd ++ op

/-- The word of an instruction. SRAI carries no `funct7`; its canonical word has `0x20` (R108; DESIGN CHOICE, log
entry 12). -/
def encode : Instr → Word
  | .lui rd imm => wordU imm rd opLUI
  | .auipc rd imm => wordU imm rd opAUIPC
  | .jal rd imm => wordJ imm rd opJAL
  | .jalr f3 rd rs1 imm => wordI imm rs1 f3 rd opJALR
  | .beq rs1 rs2 imm => wordB imm rs2 rs1 0#3 opBRANCH
  | .bne rs1 rs2 imm => wordB imm rs2 rs1 1#3 opBRANCH
  | .blt rs1 rs2 imm => wordB imm rs2 rs1 4#3 opBRANCH
  | .bge rs1 rs2 imm => wordB imm rs2 rs1 5#3 opBRANCH
  | .bltu rs1 rs2 imm => wordB imm rs2 rs1 6#3 opBRANCH
  | .bgeu rs1 rs2 imm => wordB imm rs2 rs1 7#3 opBRANCH
  | .lb rd rs1 imm => wordI imm rs1 0#3 rd opLOAD
  | .lh rd rs1 imm => wordI imm rs1 1#3 rd opLOAD
  | .lw rd rs1 imm => wordI imm rs1 2#3 rd opLOAD
  | .lbu rd rs1 imm => wordI imm rs1 4#3 rd opLOAD
  | .lhu rd rs1 imm => wordI imm rs1 5#3 rd opLOAD
  | .sb rs1 rs2 imm => wordS imm rs2 rs1 0#3 opSTORE
  | .sh rs1 rs2 imm => wordS imm rs2 rs1 1#3 opSTORE
  | .sw rs1 rs2 imm => wordS imm rs2 rs1 2#3 opSTORE
  | .addi rd rs1 imm => wordI imm rs1 0#3 rd opARITHIMM
  | .slti rd rs1 imm => wordI imm rs1 2#3 rd opARITHIMM
  | .sltiu rd rs1 imm => wordI imm rs1 3#3 rd opARITHIMM
  | .xori rd rs1 imm => wordI imm rs1 4#3 rd opARITHIMM
  | .ori rd rs1 imm => wordI imm rs1 6#3 rd opARITHIMM
  | .andi rd rs1 imm => wordI imm rs1 7#3 rd opARITHIMM
  | .slli rd rs1 imm => wordI imm rs1 1#3 rd opARITHIMM
  | .srli rd rs1 shamt => wordR 0#7 shamt rs1 5#3 rd opARITHIMM
  | .srai rd rs1 shamt => wordR 0x20#7 shamt rs1 5#3 rd opARITHIMM
  | .add rd rs1 rs2 => wordR 0#7 rs2 rs1 0#3 rd opARITH
  | .sub f7 rd rs1 rs2 => wordR f7 rs2 rs1 0#3 rd opARITH
  | .sll f7 rd rs1 rs2 => wordR f7 rs2 rs1 1#3 rd opARITH
  | .slt f7 rd rs1 rs2 => wordR f7 rs2 rs1 2#3 rd opARITH
  | .sltu f7 rd rs1 rs2 => wordR f7 rs2 rs1 3#3 rd opARITH
  | .xor f7 rd rs1 rs2 => wordR f7 rs2 rs1 4#3 rd opARITH
  | .srl rd rs1 rs2 => wordR 0#7 rs2 rs1 5#3 rd opARITH
  | .sra f7 rd rs1 rs2 => wordR f7 rs2 rs1 5#3 rd opARITH
  | .or f7 rd rs1 rs2 => wordR f7 rs2 rs1 6#3 rd opARITH
  | .and f7 rd rs1 rs2 => wordR f7 rs2 rs1 7#3 rd opARITH
  | .fence rd rs1 imm => wordI imm rs1 0#3 rd opFENCE
  | .fencei rd rs1 imm => wordI imm rs1 1#3 rd opFENCE

/-! ### The opcode table as masks (R108; spec/opcode_table.json) -/

/-- Whether `raw[31:25]` meets the row's constraint. -/
def Funct7Constraint.holds (c : Funct7Constraint) (raw : Word) : Bool :=
  match c with
  | .unconstrained => true
  | .isZero => funct7Of raw == 0#7
  | .isNonzero => funct7Of raw != 0#7

/-- "`(raw & mask) = (match & mask)` and the row's `constraint`, if it has one" (R108). -/
def Row.accepts (r : Row) (raw : Word) : Bool :=
  (raw &&& r.mask == r.matchWord &&& r.mask) && r.constraint.holds raw

/-- The rows of U, J and B format and JALR. -/
def controlRows : List Row :=
  [⟨.LUI, 0x00000037#32, 0x0000007F#32, .unconstrained⟩,
   ⟨.AUIPC, 0x00000017#32, 0x0000007F#32, .unconstrained⟩,
   ⟨.JAL, 0x0000006F#32, 0x0000007F#32, .unconstrained⟩,
   ⟨.JALR, 0x00000067#32, 0x0000007F#32, .unconstrained⟩,
   ⟨.BEQ, 0x00000063#32, 0x0000707F#32, .unconstrained⟩,
   ⟨.BNE, 0x00001063#32, 0x0000707F#32, .unconstrained⟩,
   ⟨.BLT, 0x00004063#32, 0x0000707F#32, .unconstrained⟩,
   ⟨.BGE, 0x00005063#32, 0x0000707F#32, .unconstrained⟩,
   ⟨.BLTU, 0x00006063#32, 0x0000707F#32, .unconstrained⟩,
   ⟨.BGEU, 0x00007063#32, 0x0000707F#32, .unconstrained⟩]

/-- The rows of loads, stores and fences. -/
def memoryRows : List Row :=
  [⟨.LB, 0x00000003#32, 0x0000707F#32, .unconstrained⟩,
   ⟨.LH, 0x00001003#32, 0x0000707F#32, .unconstrained⟩,
   ⟨.LW, 0x00002003#32, 0x0000707F#32, .unconstrained⟩,
   ⟨.LBU, 0x00004003#32, 0x0000707F#32, .unconstrained⟩,
   ⟨.LHU, 0x00005003#32, 0x0000707F#32, .unconstrained⟩,
   ⟨.SB, 0x00000023#32, 0x0000707F#32, .unconstrained⟩,
   ⟨.SH, 0x00001023#32, 0x0000707F#32, .unconstrained⟩,
   ⟨.SW, 0x00002023#32, 0x0000707F#32, .unconstrained⟩,
   ⟨.FENCE, 0x0000000F#32, 0x0000707F#32, .unconstrained⟩,
   ⟨.FENCEI, 0x0000100F#32, 0x0000707F#32, .unconstrained⟩]

/-- The rows of the immediate ALU operations. -/
def arithImmRows : List Row :=
  [⟨.ADDI, 0x00000013#32, 0x0000707F#32, .unconstrained⟩,
   ⟨.SLTI, 0x00002013#32, 0x0000707F#32, .unconstrained⟩,
   ⟨.SLTIU, 0x00003013#32, 0x0000707F#32, .unconstrained⟩,
   ⟨.XORI, 0x00004013#32, 0x0000707F#32, .unconstrained⟩,
   ⟨.ORI, 0x00006013#32, 0x0000707F#32, .unconstrained⟩,
   ⟨.ANDI, 0x00007013#32, 0x0000707F#32, .unconstrained⟩,
   ⟨.SLLI, 0x00001013#32, 0x0000707F#32, .unconstrained⟩,
   ⟨.SRLI, 0x00005013#32, 0xFE00707F#32, .isZero⟩,
   ⟨.SRAI, 0x40005013#32, 0x0000707F#32, .isNonzero⟩]

/-- The rows of the register ALU operations. -/
def arithRows : List Row :=
  [⟨.ADD, 0x00000033#32, 0xFE00707F#32, .isZero⟩,
   ⟨.SUB, 0x40000033#32, 0x0000707F#32, .isNonzero⟩,
   ⟨.SLL, 0x00001033#32, 0x0000707F#32, .unconstrained⟩,
   ⟨.SLT, 0x00002033#32, 0x0000707F#32, .unconstrained⟩,
   ⟨.SLTU, 0x00003033#32, 0x0000707F#32, .unconstrained⟩,
   ⟨.XOR, 0x00004033#32, 0x0000707F#32, .unconstrained⟩,
   ⟨.SRL, 0x00005033#32, 0xFE00707F#32, .isZero⟩,
   ⟨.SRA, 0x40005033#32, 0x0000707F#32, .isNonzero⟩,
   ⟨.OR, 0x00006033#32, 0x0000707F#32, .unconstrained⟩,
   ⟨.AND, 0x00007033#32, 0x0000707F#32, .unconstrained⟩]

/-- The 39 rows of the opcode table. -/
def opcodeTable : List Row := controlRows ++ memoryRows ++ arithImmRows ++ arithRows

end Sys2Proof
end

