-- ==== Sys2Proof/Config.lean ====
section
/-! DEFINITION. The three named parameters the spec leaves to the host (00_scope.md R10, R11, R12). They are
plain data, fixed when the state is created; every claim holds for every value of them (log entry 1). No value
of an instruction is left undefined by the spec, so there is no free value here. -/

namespace Sys2Proof

/-- `PCREL_BASE` (R12): the address a pc-relative offset is added to. -/
inductive PcrelBase where
  /-- `OWN`: the address of the instruction itself, the spec's value. -/
  | own
  /-- `NEXT`: the address of the following instruction, the named variant. -/
  | next
  deriving DecidableEq, Repr

/-- The parameters of the step (R10, R11, R12; R20 calls them "not state and ... a parameter of the step"). -/
structure Config where
  /-- `MEM_SIZE`: how many bytes of memory there are (R10). -/
  memSize : Nat
  /-- `ENTRY_PC`: the pc of the first cycle (R11). -/
  entryPc : Word
  /-- `PCREL_BASE` (R12). -/
  pcrelBase : PcrelBase
  deriving DecidableEq, Repr

/-- The configurations the model accepts: `1 <= MEM_SIZE <= 2^32` (R10; 93_implementation_defined.md U12:
"refuse 0 and values above `2^32`"). -/
abbrev Config.wf (c : Config) : Prop := 1 ≤ c.memSize ∧ c.memSize ≤ 2 ^ 32

/-- DESIGN CHOICE (log entries 2, 3, 4): the spec's own example and default values, `MEM_SIZE = 131072`,
`ENTRY_PC = 0`, `PCREL_BASE = OWN` (95_test_vectors.md, Conventions). -/
def Config.default : Config := { memSize := 131072, entryPc := 0#32, pcrelBase := .own }

end Sys2Proof
end

