-- ==== Sys2Proof/Machine/State.lean ====
section
/-! DEFINITION. The whole state of the machine (10_state.md R20 to R32), as plain data; the reasons a cycle can
stop (60_exceptions.md R240 to R244); and the state at creation (70_reset_and_hazards.md R270). -/

namespace Sys2Proof.Machine

/-- Memory contents (R31): address and byte, addresses strictly rising, no entry equal to what an unlisted address
reads as (`Memory.wf`). How many cells exist is `cfg.memSize`. -/
structure Memory where
  cells : List Host.Cell
  deriving DecidableEq, Repr

/-- The complete architectural state is the register file, the pc and the memory (R20): no flags, control
registers, privilege mode, pending interrupt, reservation or latched fault exist (R30, R32, R246, R250, R256).
`cfg` holds the parameters of the step, which no step changes (log entry 1). -/
structure State where
  /-- `x[0..31]`, 32 bits each (R21); slot 0 is kept 0 and reads as 0 whatever it holds (R22). -/
  regs : Vector Word 32
  /-- The address of the next instruction to fetch (R25). -/
  pc : Word
  /-- `mem[0 .. MEM_SIZE-1]` (R31). -/
  mem : Memory
  /-- `MEM_SIZE`, `ENTRY_PC`, `PCREL_BASE` (R10, R11, R12). -/
  cfg : Config
  deriving DecidableEq, Repr

/-- The kind of an access that went out of bounds (R242). -/
inductive AccessKind where
  | fetch
  | load
  | store
  deriving DecidableEq, Repr

/-- The fatal conditions (R240): each ends the run, changes nothing, and carries its information to the host. -/
inductive Fault where
  /-- `Fatal.UnimplementedInstruction(pc, raw)` (R241). Raised by FENCE, FENCEI and every word the decoder rejects.
  Safe: the spec itself names the condition and its information. -/
  | unimplementedInstruction (pc raw : Word)
  /-- `Fatal.MemoryOutOfBounds(kind, addr, n, pc)` (R242). Raised by the fetch, by loads and by stores, when a byte of
  the access lies at or above `MEM_SIZE`. Safe: the spec's hard-fault policy, the stricter of the two it was left
  (D4, log entry 5). -/
  | memoryOutOfBounds (kind : AccessKind) (addr : Word) (n : Nat) (pc : Word)
  /-- `Fatal.InternalInvariant` (R24, R243). Raised only by the register file's guard on an index of 32 or more, which
  no instruction word reaches. Safe. -/
  | internalInvariant
  deriving DecidableEq, Repr

/-- Reasons to refuse an instruction. -/
inductive Refusal where
  /-- Raised only by an arm of `exec` whose instruction has no meaning yet; there is none. Safe. -/
  | notModelled (mnemonic : String)
  deriving DecidableEq, Repr

/-- The state at creation, for a chosen configuration: all 32 registers 0 (R23), every memory byte 0 (R31), the pc at
`ENTRY_PC` (R29, R270). -/
def State.created (cfg : Config) : State :=
  { regs := Vector.replicate 32 0#32, pc := cfg.entryPc, mem := { cells := [] }, cfg := cfg }

/-- The machine right after reset: creation under the spec's own example and default parameters (R10, R11, R12; log
entries 2, 3, 4). -/
def State.reset : State := State.created Config.default

end Sys2Proof.Machine
end

