-- ==== Sys2Proof/Machine/Ops.lean ====
section
/-! DEFINITION. The named operations over registers and memory: the register file's `get` and `set` (10_state.md
R21 to R24), `MemRead` and `MemWrite` (20_memory.md R43 to R46), raising a fatal condition (60_exceptions.md
R240, R245), and the five shapes in which an instruction ends its cycle. -/

namespace Sys2Proof.Machine

/-- What a cycle answers: the next state, or a fatal condition (R240). -/
abbrev Result := Host.Outcome State Fault Refusal

/-! ### Registers -/

/-- `x[i]`: `x[0]` always returns 0 (R21). -/
def State.readReg (s : State) (i : RegIdx) : Word :=
  if i = 0#5 then 0#32 else s.regs[i.toNat]'i.isLt

/-- `x[i] <- v`: a write to register 0 is always a no-op (R22). -/
def State.writeReg (s : State) (i : RegIdx) (v : Word) : State :=
  if i = 0#5 then s else { s with regs := s.regs.set i.toNat v i.isLt }

/-- The register file's access by number, with its guard: an index of 32 or more is `Fatal.InternalInvariant`
(R24, R243). The engine only ever passes 5-bit indices. -/
def State.readRegGuarded (s : State) (n : Nat) : Except Fault Word :=
  if n < 32 then .ok (s.readReg (BitVec.ofNat 5 n)) else .error .internalInvariant

/-! ### The program counter -/

/-- `pc <- t` (R17). -/
def State.setPc (s : State) (t : Word) : State := { s with pc := t }

/-- `npc = ipc + 4`, modulo 2^32 (R17, R123). -/
def State.npc (s : State) : Word := s.pc + 4#32

/-- The default advance, `pc <- npc` (R26, R123). -/
def State.advance (s : State) : State := s.setPc s.npc

/-! ### Memory contents -/

/-- The state with other memory contents. -/
def State.setMem (s : State) (m : Memory) : State := { s with mem := m }

/-- What a byte that nothing has written reads as: "zero-initialized at creation" (R31). -/
def Memory.unlisted : Byte := 0#8

/-- The byte listed at an address. -/
def Memory.lookup : List Host.Cell → Nat → Byte
  | [], _ => Memory.unlisted
  | (c, d) :: rest, a => if a = c then d else Memory.lookup rest a

/-- The cells after writing one byte, in canonical form. -/
def Memory.insert : List Host.Cell → Nat → Byte → List Host.Cell
  | [], a, b => if b = Memory.unlisted then [] else [(a, b)]
  | (c, d) :: rest, a, b =>
    if a < c then
      if b = Memory.unlisted then (c, d) :: rest else (a, b) :: (c, d) :: rest
    else if a = c then
      if b = Memory.unlisted then rest else (a, b) :: rest
    else (c, d) :: Memory.insert rest a b

/-- `mem[a]` (R31). -/
def Memory.readByte (m : Memory) (a : Nat) : Byte := Memory.lookup m.cells a

/-- `mem[a] <- b`. -/
def Memory.writeByte (m : Memory) (a : Nat) (b : Byte) : Memory := { cells := Memory.insert m.cells a b }

/-- The canonical form: addresses strictly rising, no entry equal to what an unlisted address reads as. -/
abbrev Memory.wf (m : Memory) : Prop :=
  m.cells.Pairwise (fun p q => p.1 < q.1) ∧ ∀ c ∈ m.cells, c.2 ≠ Memory.unlisted

/-- No cell is listed at or above `size` (R31, R50). -/
abbrev Memory.within (m : Memory) (size : Nat) : Prop := ∀ c ∈ m.cells, c.1 < size

/-- The sum of `mem[a + i] * 2^(8i)` for `i < n`: byte `i` of the value is bits `8i+7 : 8i` (R40, R44). -/
def Memory.readLE (m : Memory) (a : Nat) : Nat → Word
  | 0 => 0#32
  | n + 1 => zext (m.readByte a) ||| (Memory.readLE m (a + 1) n <<< 8)

/-- `mem[a + i] <- v[8i+7 : 8i]` for `i < n` (R40, R45). -/
def Memory.writeLE (m : Memory) (a : Nat) : Nat → Word → Memory
  | 0, _ => m
  | n + 1, v => Memory.writeLE (m.writeByte a (v.setWidth 8)) (a + 1) n (v >>> 8)

/-! ### MemRead and MemWrite -/

/-- The widths of an access: 1, 2 or 4 bytes (R43, R48). -/
inductive Width where
  | byte
  | half
  | word
  deriving DecidableEq, Repr

/-- `n`, the number of bytes of an access. -/
def Width.bytes : Width → Nat
  | .byte => 1
  | .half => 2
  | .word => 4

/-- An access of `n` bytes at `a` is in bounds exactly when `a + n <= MEM_SIZE`, in unbounded integers (R46). There is
no alignment condition (R47). -/
def State.inBounds (s : State) (a : Word) (w : Width) : Bool := decide (a.toNat + w.bytes ≤ s.cfg.memSize)

/-- `MemRead(a, n)` (R44), with the kind its fatal condition names (R242). -/
def State.memRead (s : State) (kind : AccessKind) (a : Word) (w : Width) : Except Fault Word :=
  if s.inBounds a w then .ok (s.mem.readLE a.toNat w.bytes)
  else .error (.memoryOutOfBounds kind a w.bytes s.pc)

/-- `MemWrite(a, n, v)` (R45): all or nothing. -/
def State.memWrite (s : State) (a : Word) (w : Width) (v : Word) : Except Fault State :=
  if s.inBounds a w then .ok (s.setMem (s.mem.writeLE a.toNat w.bytes v))
  else .error (.memoryOutOfBounds .store a w.bytes s.pc)

/-! ### Fatal conditions -/

/-- `raise Fatal.<Kind>(info)` (R17, R240, R245): the one way a cycle stops. No state is answered: nothing changes, no
register saves the pc or a status, no handler is entered (R247), and nothing returns from it (R251). -/
def raiseFatal (f : Fault) : Result := .fault f

/-! ### The shapes of an instruction -/

/-- An instruction that writes one register and falls through (R160, R180, R220, R221). -/
def State.finish (s : State) (rd : RegIdx) (v : Word) : Result := .next (s.writeReg rd v).advance

/-- A jump that links: `x[rd] <- npc`, `pc <- target`, the target computed before the write (R126, R141, R142). -/
def State.jump (s : State) (rd : RegIdx) (target : Word) : Result := .next ((s.writeReg rd s.npc).setPc target)

/-- A conditional branch (R143). -/
def State.branch (s : State) (taken : Bool) (target : Word) : Result :=
  .next (if taken then s.setPc target else s.advance)

/-- A load: read, extend, write `rd`, fall through; out of bounds, nothing but the condition (R200, R245). -/
def State.load (s : State) (rd : RegIdx) (a : Word) (w : Width) (ext : Word → Word) : Result :=
  match s.memRead .load a w with
  | .ok v => s.finish rd (ext v)
  | .error f => raiseFatal f

/-- A store: write, fall through; out of bounds, nothing but the condition (R210, R245). -/
def State.store (s : State) (a : Word) (w : Width) (v : Word) : Result :=
  match s.memWrite a w v with
  | .ok t => .next t.advance
  | .error f => raiseFatal f

end Sys2Proof.Machine
end

