-- ==== Sys2Proof/Machine/Flags.lean ====
section
/-! DEFINITION. The hardware has no status flags and no condition codes (10_state.md R30): comparisons write 0 or 1
to a general register or steer a branch. These are the comparisons. -/

namespace Sys2Proof.Machine

/-- `a = b` (R144). -/
def condEq (a b : Word) : Bool := a == b
/-- `signed(a) < signed(b)` (R16, R146, R184). -/
def condLt (a b : Word) : Bool := a.slt b
/-- `a <u b` (R16, R148, R185). -/
def condLtu (a b : Word) : Bool := a.ult b

/-- The 32-bit value 1 or 0 that a set-less-than writes (R162, R184). -/
def boolWord (b : Bool) : Word := if b then 1#32 else 0#32

end Sys2Proof.Machine
end

