-- ==== Sys2Proof/Machine/Operands.lean ====
section
/-! DEFINITION. Every operand form the spec gives: the sign-extended immediate, shift amounts, effective
addresses, the base of pc-relative offsets, and jump targets. All sums are modulo 2^32 (00_scope.md R16). -/

namespace Sys2Proof.Machine

/-- The second operand of ADDI, SLTI, SLTIU, XORI, ORI and ANDI: `unsigned(simm)` (R160; PRESUMED for the last four,
log entry 11). -/
def immOperand (imm : BitVec 12) : Word := sext imm

/-- `imm[4:0]`, the shift amount of SLLI, SRLI and SRAI (R167). -/
def shamtOfImm {n : Nat} (imm : BitVec n) : Nat := (imm.setWidth 5).toNat

/-- The low five bits of a register's value, the shift amount of SLL, SRL and SRA (R180). -/
def shamtOfReg (v : Word) : Nat := (v.setWidth 5).toNat

/-- `addr = (x[rs1] + simm) mod 2^32` (R51, R200, R210). -/
def State.effAddr (s : State) (rs1 : RegIdx) (imm : BitVec 12) : Word := s.readReg rs1 + sext imm

/-- `PCREL_ADJ`: 0 for `OWN`, 4 for `NEXT` (R12). -/
def pcrelAdj : PcrelBase → Word
  | .own => 0#32
  | .next => 4#32

/-- `base = ipc + PCREL_ADJ` (R120, R140). -/
def State.base (s : State) : Word := s.pc + pcrelAdj s.cfg.pcrelBase

/-- The target of a taken branch or of JAL: `base + simm` (R140). -/
def State.relTarget {n : Nat} (s : State) (imm : BitVec n) : Word := s.base + sext imm

/-- The target of JALR: `(x[rs1] + simm) & 0xFFFFFFFE` (R142). -/
def State.jalrTarget (s : State) (rs1 : RegIdx) (imm : BitVec 12) : Word :=
  (s.readReg rs1 + sext imm) &&& 0xFFFFFFFE#32

end Sys2Proof.Machine
end

