-- ==== Sys2Proof/Machine/AluImm.lean ====
section
/-! DEFINITION. Immediate ALU operations (42_alu_imm.md R160 to R170). -/

namespace Sys2Proof.Machine

/-- The common shape of the six with a sign-extended immediate: `x[rd] <- f(x[rs1], simm)`, `pc <- npc` (R160). -/
def State.aluImm (s : State) (f : Word → Word → Word) (rd rs1 : RegIdx) (imm : BitVec 12) : Result :=
  s.finish rd (f (s.readReg rs1) (immOperand imm))

/-- R161. -/
def execAddi (rd rs1 : RegIdx) (imm : BitVec 12) (s : State) : Result := s.aluImm (fun a b => a + b) rd rs1 imm
/-- R162. -/
def execSlti (rd rs1 : RegIdx) (imm : BitVec 12) (s : State) : Result :=
  s.aluImm (fun a b => boolWord (condLt a b)) rd rs1 imm
/-- R163: sign-extended first, then compared unsigned. -/
def execSltiu (rd rs1 : RegIdx) (imm : BitVec 12) (s : State) : Result :=
  s.aluImm (fun a b => boolWord (condLtu a b)) rd rs1 imm
/-- R164. -/
def execXori (rd rs1 : RegIdx) (imm : BitVec 12) (s : State) : Result := s.aluImm (fun a b => a ^^^ b) rd rs1 imm
/-- R165. -/
def execOri (rd rs1 : RegIdx) (imm : BitVec 12) (s : State) : Result := s.aluImm (fun a b => a ||| b) rd rs1 imm
/-- R166. -/
def execAndi (rd rs1 : RegIdx) (imm : BitVec 12) (s : State) : Result := s.aluImm (fun a b => a &&& b) rd rs1 imm

/-- R168: the engine's mask discards `raw[31:25]` (R167). -/
def execSlli (rd rs1 : RegIdx) (imm : BitVec 12) (s : State) : Result :=
  s.finish rd (s.readReg rs1 <<< shamtOfImm imm)
/-- R169: logical right shift. -/
def execSrli (rd rs1 : RegIdx) (shamt : BitVec 5) (s : State) : Result :=
  s.finish rd (s.readReg rs1 >>> shamtOfImm shamt)
/-- R170: arithmetic right shift. -/
def execSrai (rd rs1 : RegIdx) (shamt : BitVec 5) (s : State) : Result :=
  s.finish rd ((s.readReg rs1).sshiftRight (shamtOfImm shamt))

end Sys2Proof.Machine
end

