-- ==== Sys2Proof/Machine/AluReg.lean ====
section
/-! DEFINITION. Register ALU operations (43_alu_reg.md R180 to R190). -/

namespace Sys2Proof.Machine

/-- The common shape: `x[rd] <- f(x[rs1], x[rs2])`, `pc <- npc` (R180). -/
def State.aluReg (s : State) (f : Word → Word → Word) (rd rs1 rs2 : RegIdx) : Result :=
  s.finish rd (f (s.readReg rs1) (s.readReg rs2))

/-- R181. -/
def execAdd (rd rs1 rs2 : RegIdx) (s : State) : Result := s.aluReg (fun a b => a + b) rd rs1 rs2
/-- R182. -/
def execSub (rd rs1 rs2 : RegIdx) (s : State) : Result := s.aluReg (fun a b => a - b) rd rs1 rs2
/-- R183. -/
def execSll (rd rs1 rs2 : RegIdx) (s : State) : Result := s.aluReg (fun a b => a <<< shamtOfReg b) rd rs1 rs2
/-- R184. -/
def execSlt (rd rs1 rs2 : RegIdx) (s : State) : Result := s.aluReg (fun a b => boolWord (condLt a b)) rd rs1 rs2
/-- R185. -/
def execSltu (rd rs1 rs2 : RegIdx) (s : State) : Result := s.aluReg (fun a b => boolWord (condLtu a b)) rd rs1 rs2
/-- R186. -/
def execXor (rd rs1 rs2 : RegIdx) (s : State) : Result := s.aluReg (fun a b => a ^^^ b) rd rs1 rs2
/-- R187: logical right shift. -/
def execSrl (rd rs1 rs2 : RegIdx) (s : State) : Result := s.aluReg (fun a b => a >>> shamtOfReg b) rd rs1 rs2
/-- R188: arithmetic right shift. -/
def execSra (rd rs1 rs2 : RegIdx) (s : State) : Result :=
  s.aluReg (fun a b => a.sshiftRight (shamtOfReg b)) rd rs1 rs2
/-- R189. -/
def execOr (rd rs1 rs2 : RegIdx) (s : State) : Result := s.aluReg (fun a b => a ||| b) rd rs1 rs2
/-- R190. -/
def execAnd (rd rs1 rs2 : RegIdx) (s : State) : Result := s.aluReg (fun a b => a &&& b) rd rs1 rs2

end Sys2Proof.Machine
end

