-- ==== Sys2Proof/Machine/JumpsBranches.lean ====
section
/-! DEFINITION. Jumps and branches (41_jumps_branches.md R140 to R149). No delay slot (R150); a target is checked by
nothing until the next cycle fetches there (R141, R143). -/

namespace Sys2Proof.Machine

/-- R141. -/
def execJal (rd : RegIdx) (imm : BitVec 21) (s : State) : Result := s.jump rd (s.relTarget imm)

/-- R142: `rs1` is read before `rd` is written (PRESUMED, log entry 8). -/
def execJalr (rd rs1 : RegIdx) (imm : BitVec 12) (s : State) : Result := s.jump rd (s.jalrTarget rs1 imm)

/-- R144. -/
def execBeq (rs1 rs2 : RegIdx) (imm : BitVec 13) (s : State) : Result :=
  s.branch (condEq (s.readReg rs1) (s.readReg rs2)) (s.relTarget imm)
/-- R145. -/
def execBne (rs1 rs2 : RegIdx) (imm : BitVec 13) (s : State) : Result :=
  s.branch (!condEq (s.readReg rs1) (s.readReg rs2)) (s.relTarget imm)
/-- R146. -/
def execBlt (rs1 rs2 : RegIdx) (imm : BitVec 13) (s : State) : Result :=
  s.branch (condLt (s.readReg rs1) (s.readReg rs2)) (s.relTarget imm)
/-- R147. -/
def execBge (rs1 rs2 : RegIdx) (imm : BitVec 13) (s : State) : Result :=
  s.branch (!condLt (s.readReg rs1) (s.readReg rs2)) (s.relTarget imm)
/-- R148. -/
def execBltu (rs1 rs2 : RegIdx) (imm : BitVec 13) (s : State) : Result :=
  s.branch (condLtu (s.readReg rs1) (s.readReg rs2)) (s.relTarget imm)
/-- R149. -/
def execBgeu (rs1 rs2 : RegIdx) (imm : BitVec 13) (s : State) : Result :=
  s.branch (!condLtu (s.readReg rs1) (s.readReg rs2)) (s.relTarget imm)

end Sys2Proof.Machine
end

