-- ==== Sys2Proof/Machine/Loads.lean ====
section
/-! DEFINITION. Loads (44_loads.md R200 to R205). `MemRead` answers the value zero-extended. -/

namespace Sys2Proof.Machine

/-- `sext_8` (R201). -/
def extByte (v : Word) : Word := sext (v.setWidth 8)
/-- `sext_16` (R202). -/
def extHalf (v : Word) : Word := sext (v.setWidth 16)
/-- `zext_8` (R204). -/
def extByteU (v : Word) : Word := zext (v.setWidth 8)
/-- `zext_16` (R205). -/
def extHalfU (v : Word) : Word := zext (v.setWidth 16)
/-- "taken as-is" (R203). -/
def extWord (v : Word) : Word := v

/-- R201. -/
def execLb (rd rs1 : RegIdx) (imm : BitVec 12) (s : State) : Result := s.load rd (s.effAddr rs1 imm) .byte extByte
/-- R202. -/
def execLh (rd rs1 : RegIdx) (imm : BitVec 12) (s : State) : Result := s.load rd (s.effAddr rs1 imm) .half extHalf
/-- R203. -/
def execLw (rd rs1 : RegIdx) (imm : BitVec 12) (s : State) : Result := s.load rd (s.effAddr rs1 imm) .word extWord
/-- R204. -/
def execLbu (rd rs1 : RegIdx) (imm : BitVec 12) (s : State) : Result := s.load rd (s.effAddr rs1 imm) .byte extByteU
/-- R205. -/
def execLhu (rd rs1 : RegIdx) (imm : BitVec 12) (s : State) : Result := s.load rd (s.effAddr rs1 imm) .half extHalfU

end Sys2Proof.Machine
end

