-- ==== Sys2Proof/Machine/Stores.lean ====
section
/-! DEFINITION. Stores (45_stores.md R210 to R213): the low bytes of `x[rs2]`, little-endian. -/

namespace Sys2Proof.Machine

/-- R211. -/
def execSb (rs1 rs2 : RegIdx) (imm : BitVec 12) (s : State) : Result :=
  s.store (s.effAddr rs1 imm) .byte (s.readReg rs2)
/-- R212. -/
def execSh (rs1 rs2 : RegIdx) (imm : BitVec 12) (s : State) : Result :=
  s.store (s.effAddr rs1 imm) .half (s.readReg rs2)
/-- R213. -/
def execSw (rs1 rs2 : RegIdx) (imm : BitVec 12) (s : State) : Result :=
  s.store (s.effAddr rs1 imm) .word (s.readReg rs2)

end Sys2Proof.Machine
end

