-- ==== Sys2Proof/Machine/Unimplemented.lean ====
section
/-! DEFINITION. FENCE, FENCEI and `INVALID` (47_fence_and_undefined.md R230 to R232): the engine has no case for
them, and each ends the run with `Fatal.UnimplementedInstruction(ipc, raw)` (40_cycle.md R124). FENCE and FENCEI
carry every operand bit of their word, so the encoder gives `raw` back (log entry 18). -/

namespace Sys2Proof.Machine

/-- The condition, carrying "at least the faulting pc and raw instruction word" (R124, R241). -/
def State.unimplemented (s : State) (raw : Word) : Result := raiseFatal (.unimplementedInstruction s.pc raw)

/-- R230. -/
def execFence (rd rs1 : RegIdx) (imm : BitVec 12) (s : State) : Result := s.unimplemented (encode (.fence rd rs1 imm))
/-- R231. -/
def execFencei (rd rs1 : RegIdx) (imm : BitVec 12) (s : State) : Result :=
  s.unimplemented (encode (.fencei rd rs1 imm))
/-- R232, for a word the decoder rejects: it must not silently do nothing. -/
def execInvalid (raw : Word) (s : State) : Result := s.unimplemented raw

end Sys2Proof.Machine
end

