-- ==== Sys2Proof/Machine/UpperImm.lean ====
section
/-! DEFINITION. Upper-immediate operations (46_upper_imm.md R220, R221). -/

namespace Sys2Proof.Machine

/-- R220. -/
def execLui (rd : RegIdx) (imm20 : BitVec 20) (s : State) : Result := s.finish rd (immU imm20)

/-- R221: the base is the one branches and JAL use (R140). -/
def execAuipc (rd : RegIdx) (imm20 : BitVec 20) (s : State) : Result := s.finish rd (s.base + immU imm20)

end Sys2Proof.Machine
end

