-- ==== Sys2Proof/Machine/HostOps.lean ====
section
/-! DEFINITION. What touches the machine from outside (70_reset_and_hazards.md R270 to R278), and the fetch. Nothing
here acts inside a cycle but the fetch; the host's writes come before the first cycle (R273, R274; log entry 17). -/

namespace Sys2Proof.Machine

/-- Fetch: `MemRead(ipc, 4)`, with no alignment test (R121). -/
def State.fetch (s : State) : Except Fault Word := s.memRead .fetch s.pc .word

/-- Create the state with the chosen parameters (R273 (1)); a configuration outside R10 is refused (U12). -/
def hostCreate (cfg : Config) : Option State := if cfg.wf then some (State.created cfg) else none

/-- The loader's store of one word: `MemWrite(a, 4, word)` under the same bounds rule (R274). What the condition carries
when the word is out of bounds is the model's choice (DESIGN CHOICE, log entry 26): R242 lists kind `store` for SB, SH and
SW only and is silent on the loader; here it is kind `store`, the word's address, width 4 and the pc as it then is. -/
def State.loadWord (s : State) (a word : Word) : Except Fault State := s.memWrite a .word word

/-- The loader's store of consecutive words, one `loadWord` after another. The address is counted in unbounded integers, so
that a list running past the top of the address space stops there and does not go on at 0, as a single access does not
(R46); a word that does not fit stops the load and no state is answered (DESIGN CHOICE, log entries 26 and 27). -/
def State.loadWords (s : State) (a : Nat) : List Word → Except Fault State
  | [] => .ok s
  | w :: rest =>
    if a < 2 ^ 32 then
      match s.loadWord (BitVec.ofNat 32 a) w with
      | .ok t => t.loadWords (a + 4) rest
      | .error f => .error f
    else .error (.memoryOutOfBounds .store (BitVec.ofNat 32 a) 4 s.pc)

/-- A word placed at an address if there is memory there. -/
def State.placeWord (s : State) (a word : Word) : State :=
  match s.loadWord a word with
  | .ok t => t
  | .error _ => s

/-- The host sets the pc to the entry address (R273 (3)). -/
def State.setEntry (s : State) (entry : Word) : State := s.setPc entry

/-- The host presets a register, through the register file's `set` (R22, R273 (4)). -/
def State.presetReg (s : State) (r : RegIdx) (v : Word) : State := s.writeReg r v

/-- The trace sink's view: the Instruction record of the cycle about to run. It reads and never writes (R259, R278). -/
def State.traceRecord (s : State) : Option Record :=
  match s.fetch with
  | .ok raw => some (decodeRecord raw)
  | .error _ => none

end Sys2Proof.Machine
end

