-- ==== Sys2Proof/Machine/Step.lean ====
section
/-! DEFINITION. One cycle (40_cycle.md R120 to R124): fetch four bytes at the pc, decode, dispatch. The advance of the
pc belongs to each instruction (R27), so the step adds nothing around `exec`. -/

namespace Sys2Proof.Machine

/-- `step` of R120. -/
def step (s : State) : Host.Outcome State Fault Refusal :=
  match s.fetch with
  | .error f => raiseFatal f
  | .ok raw =>
    match decode raw with
    | .ok i => exec i s
    | .error _ => execInvalid raw s

/-- The state with an instruction stored where `step` fetches its next one, as the loader stores it (R274; log entry
16): `MemWrite(pc, 4, word)`. Where the pc is outside memory nothing can be stored there (log entry 19). -/
def State.withFetchWord (s : State) (nbits w : Nat) : State := s.placeWord s.pc (BitVec.ofNat 32 (w % 2 ^ nbits))

end Sys2Proof.Machine
end

