-- ==== Sys2Proof/Safety.lean ====
section
/-! DEFINITION. What counts as a safe run, and the invariant of the state. -/

namespace Sys2Proof.Machine

/-- The invariant: a configuration R10 allows, memory in canonical form and inside `[0, MEM_SIZE)` (R31), and storage
slot 0 of the register file at 0 (R22). Nothing is required of the pc: any 32-bit value may stand there (R28). -/
abbrev State.Inv (s : State) : Prop :=
  s.cfg.wf ∧ s.mem.wf ∧ s.mem.within s.cfg.memSize ∧ s.regs[0] = 0#32

/-- `k` cycles complete with no fatal condition (R240: "a fatal outcome ... is not a successful final state"). -/
def SafeFor (k : Nat) (s : State) : Prop := ∃ t, Sys2Proof.core.run k s = .next t

/-- A run from `s` ends successfully at `bound`: some number of cycles completes and reaches the first state whose pc
is `bound` (R277; the spec's own decision D19, log entry 24). -/
def EndsAt (bound : Word) (s t : State) : Prop :=
  ∃ k, Sys2Proof.core.run k s = .next t ∧ t.pc = bound ∧
    ∀ j u, j < k → Sys2Proof.core.run j s = .next u → u.pc ≠ bound

end Sys2Proof.Machine
end

