-- ==== Sys2Proof/Certificates/Slice0/Obligations.lean ====
section
/-! DEFINITION. The statements about the machine, each a `def Obligations.<Name> : Prop`, and the few words they are
written in. A statement observes a state through the pc, `readReg`, `readByte` and the parameters, and says a result in
integers, not in the operation the meaning uses. -/

open Sys2Proof Sys2Proof.Machine

namespace Sys2Proof.Claims

/-- The signed reading of an `N`-bit field (R15): `v[N-1:0]` or `v[N-1:0] - 2^N`. -/
def signedField {n : Nat} (v : BitVec n) : Int := if v.toNat < 2 ^ (n - 1) then v.toNat else v.toNat - 2 ^ n

/-- `PCREL_ADJ` as an integer (R12). -/
def adj (s : State) : Int :=
  match s.cfg.pcrelBase with
  | .own => 0
  | .next => 4

/-- The pc is `target` modulo 2^32. -/
def PcIs (t : State) (target : Int) : Prop := (t.pc.toNat : Int) = target % 2 ^ 32

/-- `pc <- npc`: the address of the following instruction, modulo 2^32. -/
def FallsThrough (s t : State) : Prop := PcIs t (s.pc.toNat + 4)

/-- Every byte of memory and every parameter is as before. -/
def SameMemory (s t : State) : Prop := (∀ a, t.mem.readByte a = s.mem.readByte a) ∧ t.cfg = s.cfg

/-- Every register is as before. -/
def SameRegisters (s t : State) : Prop := ∀ r, t.readReg r = s.readReg r

/-- Register `rd` holds a value with the property, unless it is register 0, which stays 0; every other register, every
byte of memory and every parameter is as before. -/
def WritesOnly (s t : State) (rd : RegIdx) (holds : Word → Prop) : Prop :=
  (rd ≠ 0#5 → holds (t.readReg rd)) ∧ t.readReg 0#5 = 0#32 ∧ (∀ r, r ≠ rd → t.readReg r = s.readReg r) ∧
    SameMemory s t

/-- The instruction completes, falls through, and writes only `rd`. -/
def Computes (i : Instr) (s : State) (rd : RegIdx) (holds : Word → Prop) : Prop :=
  ∃ t, exec i s = .next t ∧ FallsThrough s t ∧ WritesOnly s t rd holds

/-- The instruction completes, writes nothing, and goes to `target` if `taken`, else to the following instruction. -/
def Branches (i : Instr) (s : State) (taken : Prop) (target : Int) : Prop :=
  ∃ t, exec i s = .next t ∧ (taken → PcIs t target) ∧ (¬taken → FallsThrough s t) ∧ SameRegisters s t ∧ SameMemory s t

/-- The `n`-byte little-endian value at an address, as a number (R44). -/
def valueAt (m : Memory) (a : Nat) : Nat → Nat
  | 0 => 0
  | n + 1 => valueAt m a n + (m.readByte (a + n)).toNat * 2 ^ (8 * n)

/-- The instruction word at an address (R41). -/
def wordAt (s : State) (a : Nat) : Word :=
  wordOfBytes (s.mem.readByte a) (s.mem.readByte (a + 1)) (s.mem.readByte (a + 2)) (s.mem.readByte (a + 3))

/-- The one data access of an instruction: kind, address, width (R48). -/
def dataAccess (i : Instr) (s : State) : Option (AccessKind × Word × Nat) :=
  match i with
  | .lb _ rs1 imm => some (.load, s.effAddr rs1 imm, 1)
  | .lbu _ rs1 imm => some (.load, s.effAddr rs1 imm, 1)
  | .lh _ rs1 imm => some (.load, s.effAddr rs1 imm, 2)
  | .lhu _ rs1 imm => some (.load, s.effAddr rs1 imm, 2)
  | .lw _ rs1 imm => some (.load, s.effAddr rs1 imm, 4)
  | .sb rs1 _ imm => some (.store, s.effAddr rs1 imm, 1)
  | .sh rs1 _ imm => some (.store, s.effAddr rs1 imm, 2)
  | .sw rs1 _ imm => some (.store, s.effAddr rs1 imm, 4)
  | _ => none

/-- The instruction stores the low `n` bytes of `x[rs2]` at `a`: if they are in bounds it completes, falls through,
writes byte `k` of the value at `a + k`, and changes no other byte, no register and no parameter. -/
def Stores (i : Instr) (s : State) (rs2 : RegIdx) (a n : Nat) : Prop :=
  a + n ≤ s.cfg.memSize → ∃ t, exec i s = .next t ∧ FallsThrough s t ∧ SameRegisters s t ∧ t.cfg = s.cfg ∧
    (s.mem.wf → ∀ k < n, (t.mem.readByte (a + k)).toNat = (s.readReg rs2).toNat / 2 ^ (8 * k) % 256) ∧
    ∀ b, b < a ∨ a + n ≤ b → t.mem.readByte b = s.mem.readByte b

/-- A word whose operation has no case in the engine (R124). -/
def Unimplemented (raw : Word) : Prop :=
  (decodeRecord raw).operation = .FENCE ∨ (decodeRecord raw).operation = .FENCEI ∨
    (decodeRecord raw).operation = .INVALID

/-- The run from `s` is over after `k` cycles: every longer run answers this condition, and every successful end it has, at
whatever bound, is a state it reached within those `k` cycles (R240, R277). -/
def RunIsOverAt (k : Nat) (s : State) (f : Fault) : Prop :=
  (∀ j, k < j → Sys2Proof.core.run j s = .fault f) ∧
    ∀ bound u, EndsAt bound s u → ∃ j ≤ k, Sys2Proof.core.run j s = .next u

/-- The relation a branch tests, and its offset (R144 to R149); `none` for any other instruction. -/
def branchOf (i : Instr) (s : State) : Option (Prop × Int) :=
  match i with
  | .beq rs1 rs2 imm => some (s.readReg rs1 = s.readReg rs2, signedField imm)
  | .bne rs1 rs2 imm => some (s.readReg rs1 ≠ s.readReg rs2, signedField imm)
  | .blt rs1 rs2 imm => some ((s.readReg rs1).toInt < (s.readReg rs2).toInt, signedField imm)
  | .bge rs1 rs2 imm => some ((s.readReg rs2).toInt ≤ (s.readReg rs1).toInt, signedField imm)
  | .bltu rs1 rs2 imm => some ((s.readReg rs1).toNat < (s.readReg rs2).toNat, signedField imm)
  | .bgeu rs1 rs2 imm => some ((s.readReg rs2).toNat ≤ (s.readReg rs1).toNat, signedField imm)
  | _ => none

/-- The six formats (R72). -/
inductive Format where
  | R | I | S | B | U | J
  deriving DecidableEq, Repr

/-- The format of an operation (R91's table; R95); `INVALID` has none. -/
def formatOf : Operation → Option Format
  | .ADD | .SUB | .SLL | .SLT | .SLTU | .XOR | .SRL | .SRA | .OR | .AND => some .R
  | .JALR | .LB | .LH | .LW | .LBU | .LHU | .ADDI | .SLTI | .SLTIU | .XORI | .ORI | .ANDI | .SLLI | .SRLI | .SRAI
  | .FENCE | .FENCEI => some .I
  | .SB | .SH | .SW => some .S
  | .BEQ | .BNE | .BLT | .BGE | .BLTU | .BGEU => some .B
  | .LUI | .AUIPC => some .U
  | .JAL => some .J
  | .INVALID => none

/-- The immediate of a record as its format packs it, read as signed at the format's width (R81). -/
def signedImm (f : Format) (imm : Word) : Int :=
  match f with
  | .I => signedField (imm.setWidth 12)
  | .S => signedField (imm.setWidth 12)
  | .B => signedField (imm.setWidth 13)
  | .J => signedField (imm.setWidth 21)
  | .U => signedField imm
  | .R => 0

end Sys2Proof.Claims

open Sys2Proof.Claims

/-! ### The decoder -/

/-- R71: the six field primitives, as slices of the word read as a number. -/
def Obligations.FieldsAreSlicesOfTheWord : Prop :=
  ∀ raw : Word, (opcodeOf raw).toNat = raw.toNat % 2 ^ 7 ∧ (rdOf raw).toNat = raw.toNat / 2 ^ 7 % 2 ^ 5 ∧
    (funct3Of raw).toNat = raw.toNat / 2 ^ 12 % 2 ^ 3 ∧ (rs1Of raw).toNat = raw.toNat / 2 ^ 15 % 2 ^ 5 ∧
    (rs2Of raw).toNat = raw.toNat / 2 ^ 20 % 2 ^ 5 ∧ (funct7Of raw).toNat = raw.toNat / 2 ^ 25

/-- R15: sign and zero extension of an `N`-bit field, as integers. -/
def Obligations.ExtensionKeepsTheFieldsReading : Prop :=
  ∀ (n : Nat) (v : BitVec n), 1 ≤ n → n ≤ 32 → (sext v).toInt = signedField v ∧ (zext v).toNat = v.toNat

/-- 30_encoding.md section 2: which bit of the word each bit of each immediate is (R74 to R78). The placement in B and J
is the spec's own reading (log entry 10). -/
def Obligations.ImmediateBitsComeFromTheirSlices : Prop :=
  ∀ raw : Word,
    (∀ k < 12, (immIOf raw).getLsbD k = raw.getLsbD (20 + k)) ∧
    (∀ k < 12, (immSOf raw).getLsbD k = raw.getLsbD (if k < 5 then 7 + k else 20 + k)) ∧
    (∀ k < 13, (immBOf raw).getLsbD k =
      if k = 0 then false
      else raw.getLsbD (if k < 5 then 7 + k else if k < 11 then 20 + k else if k = 11 then 7 else 31)) ∧
    (∀ k < 32, (immU (imm20Of raw)).getLsbD k = if k < 12 then false else raw.getLsbD k) ∧
    (∀ k < 21, (immJOf raw).getLsbD k =
      if k = 0 then false
      else raw.getLsbD (if k < 11 then 20 + k else if k = 11 then 20 else if k < 20 then k else 31))

/-- R81: in every decoded record `simm` is the immediate read as signed at its format's width; and no scaling is left to
do: a B or J offset is in bytes with bit 0 zero, a U immediate is already in place. -/
def Obligations.RecordImmediateIsSignExtended : Prop :=
  ∀ (raw : Word) (f : Format) (imm simm : Word), formatOf (decodeRecord raw).operation = some f →
    (decodeRecord raw).imm = some imm → (decodeRecord raw).simm = some simm →
    simm.toInt = signedImm f imm ∧ (f = .B ∨ f = .J → imm.toNat % 2 = 0) ∧ (f = .U → imm.toNat % 2 ^ 12 = 0)

/-- 30_encoding.md R82: SRLI and SRAI have their immediate masked to five bits in the decoder, and `simm` too (the spec's
own decision D10, log entry 12); SLLI has its twelve bits. The engine's side is `ImmediateShiftsUseFiveBits`. -/
def Obligations.ShiftImmediateRecords : Prop :=
  ∀ raw : Word, opcodeOf raw = 0x13#7 →
    (funct3Of raw = 5#3 → (decodeRecord raw).imm = some (zext (raw.extractLsb' 20 5)) ∧
      (decodeRecord raw).simm = (decodeRecord raw).imm) ∧
    (funct3Of raw = 1#3 → (decodeRecord raw).imm = some (zext (raw.extractLsb' 20 12)) ∧
      (decodeRecord raw).simm = some (sext (raw.extractLsb' 20 12)))

/-- 30_encoding.md R91: a record sets exactly the fields its format sets, each register field and sub-opcode read from its
own place in the word, the immediate packed as the format packs it (R74 to R78; the order of the slices of S, B and J is
the spec's own reading, log entry 10), and `simm` its extension (R81). SRLI and SRAI have their five bits `raw[24:20]` for
both (R82; the spec's own decision D10, log entry 12). That an unset field is `none` is the model's choice (log entry 15).
Which bits of the word each packed immediate takes is `ImmediateBitsComeFromTheirSlices`. -/
def Obligations.RecordSetsExactlyItsFormatsFields : Prop :=
  ∀ raw : Word,
    let r := decodeRecord raw
    match formatOf r.operation with
    | some .R => r.funct7 = some (funct7Of raw) ∧ r.funct3 = some (funct3Of raw) ∧ r.rs1 = some (rs1Of raw) ∧
        r.rs2 = some (rs2Of raw) ∧ r.rd = some (rdOf raw) ∧ r.imm = none ∧ r.simm = none
    | some .I => r.funct7 = none ∧ r.funct3 = some (funct3Of raw) ∧ r.rs1 = some (rs1Of raw) ∧ r.rs2 = none ∧
        r.rd = some (rdOf raw) ∧
        (if r.operation = .SRLI ∨ r.operation = .SRAI then
          r.imm = some (zext (shamtOf raw)) ∧ r.simm = some (zext (shamtOf raw))
        else r.imm = some (zext (immIOf raw)) ∧ r.simm = some (sext (immIOf raw)))
    | some .S => r.funct7 = none ∧ r.funct3 = some (funct3Of raw) ∧ r.rs1 = some (rs1Of raw) ∧
        r.rs2 = some (rs2Of raw) ∧ r.rd = none ∧ r.imm = some (zext (immSOf raw)) ∧
        r.simm = some (sext (immSOf raw))
    | some .B => r.funct7 = none ∧ r.funct3 = some (funct3Of raw) ∧ r.rs1 = some (rs1Of raw) ∧
        r.rs2 = some (rs2Of raw) ∧ r.rd = none ∧ r.imm = some (zext (immBOf raw)) ∧
        r.simm = some (sext (immBOf raw))
    | some .U => r.funct7 = none ∧ r.funct3 = none ∧ r.rs1 = none ∧ r.rs2 = none ∧ r.rd = some (rdOf raw) ∧
        r.imm = some (immU (imm20Of raw)) ∧ r.simm = some (immU (imm20Of raw))
    | some .J => r.funct7 = none ∧ r.funct3 = none ∧ r.rs1 = none ∧ r.rs2 = none ∧ r.rd = some (rdOf raw) ∧
        r.imm = some (zext (immJOf raw)) ∧ r.simm = some (sext (immJOf raw))
    | none => r = Record.invalid

/-- 30_encoding.md R104: the words with no mapping are exactly these; their record is `INVALID` with no other field set.
The opcode values and FENCE `funct3` 2 to 7 are the spec's own decisions (log entries 9, 13, 15). -/
def Obligations.FallthroughWordsExactly : Prop :=
  ∀ raw : Word,
    let op := opcodeOf raw
    let f3 := funct3Of raw
    ((decodeRecord raw).operation = .INVALID ↔
      (op ∉ [0x37#7, 0x17#7, 0x6F#7, 0x67#7, 0x63#7, 0x03#7, 0x23#7, 0x13#7, 0x33#7, 0x0F#7]) ∨
      (op = 0x63#7 ∧ f3 ∈ [2#3, 3#3]) ∨ (op = 0x03#7 ∧ f3 ∈ [3#3, 6#3, 7#3]) ∨
      (op = 0x23#7 ∧ f3 ∈ [3#3, 4#3, 5#3, 6#3, 7#3]) ∨ (op = 0x0F#7 ∧ f3 ∈ [2#3, 3#3, 4#3, 5#3, 6#3, 7#3])) ∧
    ((decodeRecord raw).operation = .INVALID → decodeRecord raw = Record.invalid)

/-- 30_encoding.md R108 (JALR's row rests on the spec's decision D12, log entry 13): the decoder gives a word an operation exactly when the operation's row of the table accepts it; a word that
matches no row is the fallthrough, no word matches two rows, and each row's match word is the canonical word of its
operation; and the four consequences (a) to (d) the rule lists. -/
def Obligations.DecoderAgreesWithTheOpcodeTable : Prop :=
  (∀ (raw : Word) (op : Operation), op ≠ .INVALID →
    ((decodeRecord raw).operation = op ↔ ∃ row ∈ opcodeTable, row.operation = op ∧ row.accepts raw = true)) ∧
  (∀ raw : Word, (decodeRecord raw).operation = .INVALID ↔ ∀ row ∈ opcodeTable, row.accepts raw = false) ∧
  (∀ raw : Word, ∀ r ∈ opcodeTable, ∀ q ∈ opcodeTable, r.accepts raw = true → q.accepts raw = true → r = q) ∧
  (∀ row ∈ opcodeTable, (decodeRecord row.matchWord).operation = row.operation ∧
    rdOf row.matchWord = 0#5 ∧ rs1Of row.matchWord = 0#5 ∧ rs2Of row.matchWord = 0#5 ∧
    funct7Of row.matchWord = if row.constraint = .isNonzero then 0x20#7 else 0#7) ∧
  (∀ raw : Word, opcodeOf raw = 0x33#7 → funct7Of raw ≠ 0#7 →
    (funct3Of raw = 0#3 → (decodeRecord raw).operation = .SUB) ∧
    (funct3Of raw = 5#3 → (decodeRecord raw).operation = .SRA)) ∧
  (∀ raw : Word, opcodeOf raw = 0x13#7 → funct3Of raw = 5#3 → funct7Of raw ≠ 0#7 →
    (decodeRecord raw).operation = .SRAI) ∧
  (∀ raw raw' : Word, opcodeOf raw = opcodeOf raw' → funct3Of raw = funct3Of raw' →
    (opcodeOf raw = 0x33#7 ∧ funct3Of raw ∉ [0#3, 5#3]) ∨ (opcodeOf raw = 0x13#7 ∧ funct3Of raw = 1#3) →
    (decodeRecord raw).operation = (decodeRecord raw').operation) ∧
  (∀ raw : Word, opcodeOf raw = 0x67#7 → (decodeRecord raw).operation = .JALR)

/-- Tier 3: every well-formed instruction, with every operand at every value its encoding admits, is decoded back from its
word. (30_encoding.md sections 2 to 4.) -/
def Obligations.DecodeEncodeRoundTrip : Prop := ∀ i : Instr, i.wf = true → decode (encode i) = .ok i

/-- The other direction: a word that decodes is well formed, and is the word the encoder writes, but for `raw[31:25]` of
SRAI, which the I format does not set (R74, R91) and which the encoder writes as 0x20 (log entry 12): every other field of
an SRAI word, its opcode and `funct3` among them, comes back from `raw`. -/
def Obligations.EncodeDecodeRoundTrip : Prop :=
  ∀ (raw : Word) (i : Instr), decode raw = .ok i → i.wf = true ∧
    encode i = match i with
      | .srai _ _ _ => wordR 0x20#7 (rs2Of raw) (rs1Of raw) (funct3Of raw) (rdOf raw) (opcodeOf raw)
      | _ => raw

/-- Words written out bit by bit from 30_encoding.md's layouts (R72), one or more of each format, decode to the operation
the classification gives them (R95 to R103). The opcode numbers but those of ADDI and FENCE, and FENCE's `funct3`, are
presumed by the spec itself (PRESUMED, log entry 9), and so is the order of the immediate slices of SW, BLT and JAL
(PRESUMED, log entry 10). -/
def Obligations.SampleWordsDecode : Prop :=
  decode (0b0000000#7 ++ 0b00010#5 ++ 0b00001#5 ++ 0b000#3 ++ 0b00011#5 ++ 0b0110011#7) = .ok (.add 3#5 1#5 2#5) ∧
  decode (0b111111111111#12 ++ 0b00001#5 ++ 0b000#3 ++ 0b00011#5 ++ 0b0010011#7) = .ok (.addi 3#5 1#5 0xFFF#12) ∧
  decode (0b1111111#7 ++ 0b00010#5 ++ 0b00001#5 ++ 0b010#3 ++ 0b11100#5 ++ 0b0100011#7) =
    .ok (.sw 1#5 2#5 0xFFC#12) ∧
  decode (0b1#1 ++ 0b111111#6 ++ 0b01011#5 ++ 0b01010#5 ++ 0b100#3 ++ 0b1110#4 ++ 0b1#1 ++ 0b1100011#7) =
    .ok (.blt 10#5 11#5 0x1FFC#13) ∧
  decode (0b00010010001101000101#20 ++ 0b00101#5 ++ 0b0110111#7) = .ok (.lui 5#5 0x12345#20) ∧
  decode (0b0#1 ++ 0b0000001000#10 ++ 0b0#1 ++ 0b00000000#8 ++ 0b00001#5 ++ 0b1101111#7) = .ok (.jal 1#5 16#21) ∧
  decode (0b000011111111#12 ++ 0b00000#5 ++ 0b000#3 ++ 0b00000#5 ++ 0b0001111#7) = .ok (.fence 0#5 0#5 0xFF#12)

/-! ### State and memory -/

/-- 70_reset_and_hazards.md R270, R273, R274: the state at creation, and what the host's preparation does to it: presets
through the register file, the loader's words, the entry pc. Nothing else of the state changes, the capacity in particular.
R270 gives the pc no value of its own at creation; that it is `ENTRY_PC` there is the model's choice (R29; log entry 3). -/
def Obligations.CreationAndPreparationOfTheState : Prop :=
  (∀ cfg : Config, (∀ r, (State.created cfg).readReg r = 0#32) ∧ (∀ a, (State.created cfg).mem.readByte a = 0#8) ∧
    (State.created cfg).pc = cfg.entryPc ∧ (State.created cfg).cfg = cfg) ∧
  (∀ (s : State) (r : RegIdx) (v : Word), WritesOnly s (s.presetReg r v) r (· = v) ∧ (s.presetReg r v).pc = s.pc) ∧
  (∀ (s t : State) (a w : Word), s.loadWord a w = .ok t → t.pc = s.pc ∧ SameRegisters s t ∧ t.cfg = s.cfg ∧
    (s.mem.wf → ∀ k < 4, t.mem.readByte (a.toNat + k) = w.extractLsb' (8 * k) 8) ∧
    ∀ b, b < a.toNat ∨ a.toNat + 4 ≤ b → t.mem.readByte b = s.mem.readByte b) ∧
  (∀ (s : State) (entry : Word), (s.setEntry entry).pc = entry ∧ SameRegisters s (s.setEntry entry) ∧
    SameMemory s (s.setEntry entry))

/-- The model's reset state: creation under the parameters the spec gives as example and defaults (DESIGN CHOICE, log
entries 2, 3, 4). -/
def Obligations.ResetUsesTheDefaultParameters : Prop :=
  State.reset.pc = 0#32 ∧ State.reset.cfg.memSize = 131072 ∧ State.reset.cfg.entryPc = 0#32 ∧
    State.reset.cfg.pcrelBase = .own ∧ State.reset.mem.cells = [] ∧ ∀ r, State.reset.readReg r = 0#32

/-- R22: register 0 discards every write; the others hold what is written; and the write is all that register 0 discards: a
load to it, of any width, still makes its access and still raises what that access raises. -/
def Obligations.RegisterZeroDiscardsWrites : Prop :=
  (∀ (s : State) (v : Word), s.writeReg 0#5 v = s ∧ s.readReg 0#5 = 0#32) ∧
  (∀ (s : State) (r : RegIdx) (v : Word), r ≠ 0#5 → (s.writeReg r v).readReg r = v) ∧
  (∀ (s : State) (r q : RegIdx) (v : Word), q ≠ r → (s.writeReg r v).readReg q = s.readReg q) ∧
  (∀ (s : State) (rd rs1 : RegIdx) (imm : BitVec 12) (f : Fault),
    (exec (.lb 0#5 rs1 imm) s = .fault f ↔ exec (.lb rd rs1 imm) s = .fault f) ∧
    (exec (.lh 0#5 rs1 imm) s = .fault f ↔ exec (.lh rd rs1 imm) s = .fault f) ∧
    (exec (.lw 0#5 rs1 imm) s = .fault f ↔ exec (.lw rd rs1 imm) s = .fault f) ∧
    (exec (.lbu 0#5 rs1 imm) s = .fault f ↔ exec (.lbu rd rs1 imm) s = .fault f) ∧
    (exec (.lhu 0#5 rs1 imm) s = .fault f ↔ exec (.lhu rd rs1 imm) s = .fault f))

/-- 60_exceptions.md R243 (that no word raises it is the spec's own inference): the guard of the register file answers `Fatal.InternalInvariant` for an index of 32 or more and reads the register
otherwise; no instruction and no cycle raises it. -/
def Obligations.RegisterGuardIsNeverReached : Prop :=
  (∀ (s : State) (r : RegIdx), s.readRegGuarded r.toNat = .ok (s.readReg r)) ∧
  (∀ (s : State) (n : Nat), 32 ≤ n → s.readRegGuarded n = .error .internalInvariant) ∧
  (∀ (i : Instr) (s : State), exec i s ≠ .fault .internalInvariant) ∧
  ∀ s : State, step s ≠ .fault .internalInvariant

/-- 20_memory.md R46: in bounds exactly when `a + n <= MEM_SIZE` in unbounded integers; otherwise a read and a write answer
the condition alone. The hard fault and what it carries are the spec's own decision D4 (log entry 5). -/
def Obligations.BoundsTestIsUnbounded : Prop :=
  ∀ (s : State) (kind : AccessKind) (a : Word) (w : Width) (v : Word),
    ((∃ x, s.memRead kind a w = .ok x) ↔ a.toNat + w.bytes ≤ s.cfg.memSize) ∧
    ((∃ t, s.memWrite a w v = .ok t) ↔ a.toNat + w.bytes ≤ s.cfg.memSize) ∧
    (s.cfg.memSize < a.toNat + w.bytes →
      s.memRead kind a w = .error (.memoryOutOfBounds kind a w.bytes s.pc) ∧
      s.memWrite a w v = .error (.memoryOutOfBounds .store a w.bytes s.pc))

/-- R44: `MemRead` answers the sum of `mem[a + i] * 2^(8i)`, a value below `2^(8n)`, or raises. -/
def Obligations.MemReadIsTheLittleEndianSum : Prop :=
  ∀ (s : State) (kind : AccessKind) (a : Word) (w : Width),
    (a.toNat + w.bytes ≤ s.cfg.memSize → ∃ v, s.memRead kind a w = .ok v ∧
      v.toNat = valueAt s.mem a.toNat w.bytes ∧ v.toNat < 2 ^ (8 * w.bytes)) ∧
    (s.cfg.memSize < a.toNat + w.bytes → ∃ k b n p, s.memRead kind a w = .error (.memoryOutOfBounds k b n p))

/-- R45: `MemWrite` sets byte `i` to bits `8i+7 : 8i` and no other byte; out of bounds it answers no state. -/
def Obligations.MemWriteSetsOnlyItsBytes : Prop :=
  ∀ (s : State) (a : Word) (w : Width) (v : Word),
    (s.cfg.memSize < a.toNat + w.bytes → ∃ k b n p, s.memWrite a w v = .error (.memoryOutOfBounds k b n p)) ∧
    (a.toNat + w.bytes ≤ s.cfg.memSize → ∃ t, s.memWrite a w v = .ok t ∧
      (s.mem.wf → ∀ k < w.bytes, t.mem.readByte (a.toNat + k) = v.extractLsb' (8 * k) 8) ∧
      (∀ b, b < a.toNat ∨ a.toNat + w.bytes ≤ b → t.mem.readByte b = s.mem.readByte b) ∧
      t.pc = s.pc ∧ SameRegisters s t ∧ t.cfg = s.cfg)

/-- 20_memory.md R42 (the spec's own derivation from R40 and R44), in every state with the invariant: after a word is written, every narrower read inside it sees the bytes little-endian order places. -/
def Obligations.MixedWidthReadsSeeTheBytes : Prop :=
  ∀ (s t : State) (kind : AccessKind) (a v : Word), s.Inv → s.memWrite a .word v = .ok t →
    (∀ k < 4, t.memRead kind (a + BitVec.ofNat 32 k) .byte = .ok (zext (v.extractLsb' (8 * k) 8))) ∧
    t.memRead kind a .half = .ok (zext (v.extractLsb' 0 16)) ∧
    t.memRead kind (a + 2#32) .half = .ok (zext (v.extractLsb' 16 16))

/-- R61: the little-endian round trip at every address in bounds, odd ones included, in every state with the invariant
(which every cycle keeps: `StepKeepsTheInvariant`). -/
def Obligations.StoredWordIsLoadedBack : Prop :=
  ∀ (s t : State) (kind : AccessKind) (a v : Word), s.Inv → s.memWrite a .word v = .ok t →
    t.memRead kind a .word = .ok v ∧ t.memRead kind a .byte = .ok (v &&& 0xFF#32) ∧
    t.memRead kind (a + 1#32) .byte = .ok ((v >>> 8) &&& 0xFF#32) ∧
    t.memRead kind (a + 2#32) .byte = .ok ((v >>> 16) &&& 0xFF#32) ∧
    t.memRead kind (a + 3#32) .byte = .ok ((v >>> 24) &&& 0xFF#32)

/-- 20_memory.md R51: the effective address of a load or store. The reduction modulo 2^32 is the spec's own decision D8 (log
entry 20). -/
def Obligations.EffectiveAddressWraps : Prop :=
  ∀ (s : State) (rs1 : RegIdx) (imm : BitVec 12),
    ((s.effAddr rs1 imm).toNat : Int) = ((s.readReg rs1).toNat + signedField imm) % 2 ^ 32

/-! ### Register ALU -/

/-- R181, R182: ADD and SUB, their encodings, their results modulo 2^32 (the same bits signed or unsigned), and their frame. -/
def Obligations.AddAndSubWrap : Prop :=
  (∀ raw : Word, opcodeOf raw = opARITH → funct3Of raw = 0#3 →
    (funct7Of raw = 0#7 → decode raw = .ok (.add (rdOf raw) (rs1Of raw) (rs2Of raw))) ∧
    (funct7Of raw ≠ 0#7 → decode raw = .ok (.sub (funct7Of raw) (rdOf raw) (rs1Of raw) (rs2Of raw)))) ∧
  (∀ (s : State) (rd rs1 rs2 : RegIdx), Computes (.add rd rs1 rs2) s rd fun v =>
    v.toNat = ((s.readReg rs1).toNat + (s.readReg rs2).toNat) % 2 ^ 32 ∧
    v.toInt = ((s.readReg rs1).toInt + (s.readReg rs2).toInt).bmod (2 ^ 32)) ∧
  (∀ (s : State) (f7 : BitVec 7) (rd rs1 rs2 : RegIdx), Computes (.sub f7 rd rs1 rs2) s rd fun v =>
    (v.toNat : Int) = ((s.readReg rs1).toNat - (s.readReg rs2).toNat : Int) % 2 ^ 32)

/-- R183, R187, R188: the register shifts use the low five bits of `x[rs2]`. -/
def Obligations.RegisterShiftsUseFiveBits : Prop :=
  (∀ raw : Word, opcodeOf raw = opARITH →
    (funct3Of raw = 1#3 → decode raw = .ok (.sll (funct7Of raw) (rdOf raw) (rs1Of raw) (rs2Of raw))) ∧
    (funct3Of raw = 5#3 → funct7Of raw = 0#7 → decode raw = .ok (.srl (rdOf raw) (rs1Of raw) (rs2Of raw))) ∧
    (funct3Of raw = 5#3 → funct7Of raw ≠ 0#7 →
      decode raw = .ok (.sra (funct7Of raw) (rdOf raw) (rs1Of raw) (rs2Of raw)))) ∧
  (∀ (s : State) (f7 : BitVec 7) (rd rs1 rs2 : RegIdx), Computes (.sll f7 rd rs1 rs2) s rd fun v =>
    v.toNat = (s.readReg rs1).toNat * 2 ^ ((s.readReg rs2).toNat % 32) % 2 ^ 32) ∧
  (∀ (s : State) (rd rs1 rs2 : RegIdx), Computes (.srl rd rs1 rs2) s rd fun v =>
    v.toNat = (s.readReg rs1).toNat / 2 ^ ((s.readReg rs2).toNat % 32)) ∧
  (∀ (s : State) (f7 : BitVec 7) (rd rs1 rs2 : RegIdx), Computes (.sra f7 rd rs1 rs2) s rd fun v =>
    v.toInt = (s.readReg rs1).toInt / 2 ^ ((s.readReg rs2).toNat % 32))

/-- R184, R185: SLT and SLTU write 1 or 0. -/
def Obligations.SetLessThanWritesOneOrZero : Prop :=
  (∀ raw : Word, opcodeOf raw = opARITH →
    (funct3Of raw = 2#3 → decode raw = .ok (.slt (funct7Of raw) (rdOf raw) (rs1Of raw) (rs2Of raw))) ∧
    (funct3Of raw = 3#3 → decode raw = .ok (.sltu (funct7Of raw) (rdOf raw) (rs1Of raw) (rs2Of raw)))) ∧
  (∀ (s : State) (f7 : BitVec 7) (rd rs1 rs2 : RegIdx), Computes (.slt f7 rd rs1 rs2) s rd fun v =>
    v.toNat = if (s.readReg rs1).toInt < (s.readReg rs2).toInt then 1 else 0) ∧
  (∀ (s : State) (f7 : BitVec 7) (rd rs1 rs2 : RegIdx), Computes (.sltu f7 rd rs1 rs2) s rd fun v =>
    v.toNat = if (s.readReg rs1).toNat < (s.readReg rs2).toNat then 1 else 0)

/-- R186, R189, R190: XOR, OR and AND, bit by bit. -/
def Obligations.RegisterLogicIsBitwise : Prop :=
  (∀ raw : Word, opcodeOf raw = opARITH →
    (funct3Of raw = 4#3 → decode raw = .ok (.xor (funct7Of raw) (rdOf raw) (rs1Of raw) (rs2Of raw))) ∧
    (funct3Of raw = 6#3 → decode raw = .ok (.or (funct7Of raw) (rdOf raw) (rs1Of raw) (rs2Of raw))) ∧
    (funct3Of raw = 7#3 → decode raw = .ok (.and (funct7Of raw) (rdOf raw) (rs1Of raw) (rs2Of raw)))) ∧
  (∀ (s : State) (f7 : BitVec 7) (rd rs1 rs2 : RegIdx), Computes (.xor f7 rd rs1 rs2) s rd fun v =>
    ∀ k < 32, v.getLsbD k = ((s.readReg rs1).getLsbD k != (s.readReg rs2).getLsbD k)) ∧
  (∀ (s : State) (f7 : BitVec 7) (rd rs1 rs2 : RegIdx), Computes (.or f7 rd rs1 rs2) s rd fun v =>
    ∀ k < 32, v.getLsbD k = ((s.readReg rs1).getLsbD k || (s.readReg rs2).getLsbD k)) ∧
  (∀ (s : State) (f7 : BitVec 7) (rd rs1 rs2 : RegIdx), Computes (.and f7 rd rs1 rs2) s rd fun v =>
    ∀ k < 32, v.getLsbD k = ((s.readReg rs1).getLsbD k && (s.readReg rs2).getLsbD k))

/-! ### Immediate ALU -/

/-- R161: ADDI. -/
def Obligations.AddImmediateWraps : Prop :=
  (∀ raw : Word, opcodeOf raw = opARITHIMM → funct3Of raw = 0#3 →
    decode raw = .ok (.addi (rdOf raw) (rs1Of raw) (immIOf raw))) ∧
  (∀ (s : State) (rd rs1 : RegIdx) (imm : BitVec 12), Computes (.addi rd rs1 imm) s rd fun v =>
    (v.toNat : Int) = ((s.readReg rs1).toNat + signedField imm) % 2 ^ 32)

/-- R162: SLTI compares signed. -/
def Obligations.SetLessThanImmediate : Prop :=
  (∀ raw : Word, opcodeOf raw = opARITHIMM → funct3Of raw = 2#3 →
    decode raw = .ok (.slti (rdOf raw) (rs1Of raw) (immIOf raw))) ∧
  (∀ (s : State) (rd rs1 : RegIdx) (imm : BitVec 12), Computes (.slti rd rs1 imm) s rd fun v =>
    v.toNat = if (s.readReg rs1).toInt < signedField imm then 1 else 0)

/-- 42_alu_imm.md R163: SLTIU compares unsigned with the sign-extended immediate (the spec's own decision D9, log entry
11). -/
def Obligations.SetLessThanImmediateUnsigned : Prop :=
  (∀ raw : Word, opcodeOf raw = opARITHIMM → funct3Of raw = 3#3 →
    decode raw = .ok (.sltiu (rdOf raw) (rs1Of raw) (immIOf raw))) ∧
  (∀ (s : State) (rd rs1 : RegIdx) (imm : BitVec 12), Computes (.sltiu rd rs1 imm) s rd fun v =>
    v.toNat = if ((s.readReg rs1).toNat : Int) < signedField imm % 2 ^ 32 then 1 else 0)

/-- 42_alu_imm.md R164 to R166: XORI, ORI and ANDI, bit by bit; bits 31 down to 11 of the operand are the immediate's sign
(the spec's own decision D9, log entry 11). -/
def Obligations.ImmediateLogicIsBitwise : Prop :=
  (∀ raw : Word, opcodeOf raw = opARITHIMM →
    (funct3Of raw = 4#3 → decode raw = .ok (.xori (rdOf raw) (rs1Of raw) (immIOf raw))) ∧
    (funct3Of raw = 6#3 → decode raw = .ok (.ori (rdOf raw) (rs1Of raw) (immIOf raw))) ∧
    (funct3Of raw = 7#3 → decode raw = .ok (.andi (rdOf raw) (rs1Of raw) (immIOf raw)))) ∧
  (∀ (s : State) (rd rs1 : RegIdx) (imm : BitVec 12), Computes (.xori rd rs1 imm) s rd fun v =>
    ∀ k < 32, v.getLsbD k = ((s.readReg rs1).getLsbD k != imm.getLsbD (min k 11))) ∧
  (∀ (s : State) (rd rs1 : RegIdx) (imm : BitVec 12), Computes (.ori rd rs1 imm) s rd fun v =>
    ∀ k < 32, v.getLsbD k = ((s.readReg rs1).getLsbD k || imm.getLsbD (min k 11))) ∧
  (∀ (s : State) (rd rs1 : RegIdx) (imm : BitVec 12), Computes (.andi rd rs1 imm) s rd fun v =>
    ∀ k < 32, v.getLsbD k = ((s.readReg rs1).getLsbD k && imm.getLsbD (min k 11)))

/-- R167 to R170: SLLI, SRLI and SRAI shift by the low five bits of the immediate, which are `raw[24:20]`. -/
def Obligations.ImmediateShiftsUseFiveBits : Prop :=
  (∀ raw : Word, opcodeOf raw = opARITHIMM →
    (funct3Of raw = 1#3 → decode raw = .ok (.slli (rdOf raw) (rs1Of raw) (immIOf raw)) ∧
      (immIOf raw).toNat % 32 = raw.toNat / 2 ^ 20 % 32) ∧
    (funct3Of raw = 5#3 → funct7Of raw = 0#7 → decode raw = .ok (.srli (rdOf raw) (rs1Of raw) (raw.extractLsb' 20 5))) ∧
    (funct3Of raw = 5#3 → funct7Of raw ≠ 0#7 →
      decode raw = .ok (.srai (rdOf raw) (rs1Of raw) (raw.extractLsb' 20 5)))) ∧
  (∀ (s : State) (rd rs1 : RegIdx) (imm : BitVec 12), Computes (.slli rd rs1 imm) s rd fun v =>
    v.toNat = (s.readReg rs1).toNat * 2 ^ (imm.toNat % 32) % 2 ^ 32) ∧
  (∀ (s : State) (rd rs1 : RegIdx) (shamt : BitVec 5), Computes (.srli rd rs1 shamt) s rd fun v =>
    v.toNat = (s.readReg rs1).toNat / 2 ^ shamt.toNat) ∧
  (∀ (s : State) (rd rs1 : RegIdx) (shamt : BitVec 5), Computes (.srai rd rs1 shamt) s rd fun v =>
    v.toInt = (s.readReg rs1).toInt / 2 ^ shamt.toNat)

/-! ### Upper immediates, jumps and branches -/

/-- 46_upper_imm.md R220: LUI. That it executes, and what it writes, is the spec's own decision D6 (log entry 8). -/
def Obligations.LoadUpperImmediate : Prop :=
  (∀ raw : Word, opcodeOf raw = opLUI → decode raw = .ok (.lui (rdOf raw) (raw.extractLsb' 12 20))) ∧
  (∀ (s : State) (rd : RegIdx) (imm20 : BitVec 20), Computes (.lui rd imm20) s rd fun v =>
    v.toNat = imm20.toNat * 2 ^ 12)

/-- 46_upper_imm.md R221: AUIPC, under both values of `PCREL_BASE`. That it executes, and its base, are the spec's own
decisions D6 and D17 (log entry 8). -/
def Obligations.AddUpperImmediateToPc : Prop :=
  (∀ raw : Word, opcodeOf raw = opAUIPC → decode raw = .ok (.auipc (rdOf raw) (raw.extractLsb' 12 20))) ∧
  (∀ (s : State) (rd : RegIdx) (imm20 : BitVec 20), Computes (.auipc rd imm20) s rd fun v =>
    (v.toNat : Int) = (s.pc.toNat + adj s + imm20.toNat * 2 ^ 12) % 2 ^ 32)

/-- R141: JAL writes the link `ipc + 4` and goes to `base + simm`. -/
def Obligations.JumpAndLink : Prop :=
  (∀ raw : Word, opcodeOf raw = opJAL → decode raw = .ok (.jal (rdOf raw) (immJOf raw))) ∧
  (∀ (s : State) (rd : RegIdx) (imm : BitVec 21), ∃ t, exec (.jal rd imm) s = .next t ∧
    PcIs t (s.pc.toNat + adj s + signedField imm) ∧
    WritesOnly s t rd fun v => v.toNat = (s.pc.toNat + 4) % 2 ^ 32)

/-- 41_jumps_branches.md R142: JALR goes to the OLD `x[rs1] + simm` with bit 0 cleared, whatever `funct3`, and writes the
link `ipc + 4`. The target, the cleared bit, the order and the unexamined `funct3` are the spec's own decisions D6, D12,
D15 and D16 (log entries 8, 13). -/
def Obligations.JumpAndLinkRegister : Prop :=
  (∀ raw : Word, opcodeOf raw = opJALR →
    decode raw = .ok (.jalr (funct3Of raw) (rdOf raw) (rs1Of raw) (immIOf raw))) ∧
  (∀ (s : State) (f3 : BitVec 3) (rd rs1 : RegIdx) (imm : BitVec 12), ∃ t, exec (.jalr f3 rd rs1 imm) s = .next t ∧
    (t.pc.toNat : Int) = ((s.readReg rs1).toNat + signedField imm) % 2 ^ 32 / 2 * 2 ∧
    WritesOnly s t rd fun v => v.toNat = (s.pc.toNat + 4) % 2 ^ 32)

/-- R144, R145: BEQ and BNE. -/
def Obligations.BranchOnEquality : Prop :=
  (∀ raw : Word, opcodeOf raw = opBRANCH →
    (funct3Of raw = 0#3 → decode raw = .ok (.beq (rs1Of raw) (rs2Of raw) (immBOf raw))) ∧
    (funct3Of raw = 1#3 → decode raw = .ok (.bne (rs1Of raw) (rs2Of raw) (immBOf raw)))) ∧
  ∀ (s : State) (rs1 rs2 : RegIdx) (imm : BitVec 13),
    Branches (.beq rs1 rs2 imm) s (s.readReg rs1 = s.readReg rs2) (s.pc.toNat + adj s + signedField imm) ∧
    Branches (.bne rs1 rs2 imm) s (s.readReg rs1 ≠ s.readReg rs2) (s.pc.toNat + adj s + signedField imm)

/-- R146, R147: BLT and BGE compare signed readings. -/
def Obligations.BranchOnSignedOrder : Prop :=
  (∀ raw : Word, opcodeOf raw = opBRANCH →
    (funct3Of raw = 4#3 → decode raw = .ok (.blt (rs1Of raw) (rs2Of raw) (immBOf raw))) ∧
    (funct3Of raw = 5#3 → decode raw = .ok (.bge (rs1Of raw) (rs2Of raw) (immBOf raw)))) ∧
  ∀ (s : State) (rs1 rs2 : RegIdx) (imm : BitVec 13),
    Branches (.blt rs1 rs2 imm) s ((s.readReg rs1).toInt < (s.readReg rs2).toInt)
      (s.pc.toNat + adj s + signedField imm) ∧
    Branches (.bge rs1 rs2 imm) s ((s.readReg rs2).toInt ≤ (s.readReg rs1).toInt)
      (s.pc.toNat + adj s + signedField imm)

/-- R148, R149: BLTU and BGEU compare unsigned readings. -/
def Obligations.BranchOnUnsignedOrder : Prop :=
  (∀ raw : Word, opcodeOf raw = opBRANCH →
    (funct3Of raw = 6#3 → decode raw = .ok (.bltu (rs1Of raw) (rs2Of raw) (immBOf raw))) ∧
    (funct3Of raw = 7#3 → decode raw = .ok (.bgeu (rs1Of raw) (rs2Of raw) (immBOf raw)))) ∧
  ∀ (s : State) (rs1 rs2 : RegIdx) (imm : BitVec 13),
    Branches (.bltu rs1 rs2 imm) s ((s.readReg rs1).toNat < (s.readReg rs2).toNat)
      (s.pc.toNat + adj s + signedField imm) ∧
    Branches (.bgeu rs1 rs2 imm) s ((s.readReg rs2).toNat ≤ (s.readReg rs1).toNat)
      (s.pc.toNat + adj s + signedField imm)

/-! ### Loads and stores -/

/-- R201, R204: LB and LBU, when the byte is in bounds. -/
def Obligations.ByteLoads : Prop :=
  (∀ raw : Word, opcodeOf raw = opLOAD →
    (funct3Of raw = 0#3 → decode raw = .ok (.lb (rdOf raw) (rs1Of raw) (immIOf raw))) ∧
    (funct3Of raw = 4#3 → decode raw = .ok (.lbu (rdOf raw) (rs1Of raw) (immIOf raw)))) ∧
  ∀ (s : State) (rd rs1 : RegIdx) (imm : BitVec 12) (a : Nat), (s.effAddr rs1 imm).toNat = a →
    a + 1 ≤ s.cfg.memSize → (a : Int) = ((s.readReg rs1).toNat + signedField imm) % 2 ^ 32 ∧
    Computes (.lb rd rs1 imm) s rd (fun v => v.toInt = signedField (s.mem.readByte a)) ∧
    Computes (.lbu rd rs1 imm) s rd fun v => v.toNat = (s.mem.readByte a).toNat

/-- R202, R205: LH and LHU, when both bytes are in bounds; the byte at the lower address is bits 7:0. -/
def Obligations.HalfwordLoads : Prop :=
  (∀ raw : Word, opcodeOf raw = opLOAD →
    (funct3Of raw = 1#3 → decode raw = .ok (.lh (rdOf raw) (rs1Of raw) (immIOf raw))) ∧
    (funct3Of raw = 5#3 → decode raw = .ok (.lhu (rdOf raw) (rs1Of raw) (immIOf raw)))) ∧
  ∀ (s : State) (rd rs1 : RegIdx) (imm : BitVec 12) (a : Nat), (s.effAddr rs1 imm).toNat = a →
    a + 2 ≤ s.cfg.memSize → (a : Int) = ((s.readReg rs1).toNat + signedField imm) % 2 ^ 32 ∧
    Computes (.lh rd rs1 imm) s rd (fun v =>
      v.toInt = signedField (s.mem.readByte (a + 1) ++ s.mem.readByte a)) ∧
    Computes (.lhu rd rs1 imm) s rd fun v =>
      v.toNat = (s.mem.readByte a).toNat + 2 ^ 8 * (s.mem.readByte (a + 1)).toNat

/-- R203: LW, when its four bytes are in bounds, at any alignment. -/
def Obligations.WordLoad : Prop :=
  (∀ raw : Word, opcodeOf raw = opLOAD → funct3Of raw = 2#3 →
    decode raw = .ok (.lw (rdOf raw) (rs1Of raw) (immIOf raw))) ∧
  ∀ (s : State) (rd rs1 : RegIdx) (imm : BitVec 12) (a : Nat), (s.effAddr rs1 imm).toNat = a →
    a + 4 ≤ s.cfg.memSize → (a : Int) = ((s.readReg rs1).toNat + signedField imm) % 2 ^ 32 ∧
    Computes (.lw rd rs1 imm) s rd fun v => v.toNat = (s.mem.readByte a).toNat + 2 ^ 8 * (s.mem.readByte (a + 1)).toNat +
      2 ^ 16 * (s.mem.readByte (a + 2)).toNat + 2 ^ 24 * (s.mem.readByte (a + 3)).toNat

/-- R211, R212, R213: SB, SH and SW, when their bytes are in bounds. The value stored is read back only from memory in
canonical form, which every cycle keeps (`StepKeepsTheInvariant`). -/
def Obligations.StoresWriteTheLowBytes : Prop :=
  (∀ raw : Word, opcodeOf raw = opSTORE →
    (funct3Of raw = 0#3 → decode raw = .ok (.sb (rs1Of raw) (rs2Of raw) (immSOf raw))) ∧
    (funct3Of raw = 1#3 → decode raw = .ok (.sh (rs1Of raw) (rs2Of raw) (immSOf raw))) ∧
    (funct3Of raw = 2#3 → decode raw = .ok (.sw (rs1Of raw) (rs2Of raw) (immSOf raw)))) ∧
  ∀ (s : State) (rs1 rs2 : RegIdx) (imm : BitVec 12) (a : Nat), (s.effAddr rs1 imm).toNat = a →
    (a : Int) = ((s.readReg rs1).toNat + signedField imm) % 2 ^ 32 ∧
    Stores (.sb rs1 rs2 imm) s rs2 a 1 ∧ Stores (.sh rs1 rs2 imm) s rs2 a 2 ∧ Stores (.sw rs1 rs2 imm) s rs2 a 4

/-! ### Fatal conditions -/

/-- R230, R231: FENCE and FENCEI decode, and executing either ends the run with the faulting pc and its own word, for every
value of the unread fields. -/
def Obligations.FencesAreFatal : Prop :=
  ∀ (s : State) (raw : Word), opcodeOf raw = opFENCE →
    (funct3Of raw = 0#3 → decode raw = .ok (.fence (rdOf raw) (rs1Of raw) (immIOf raw)) ∧
      exec (.fence (rdOf raw) (rs1Of raw) (immIOf raw)) s = .fault (.unimplementedInstruction s.pc raw)) ∧
    (funct3Of raw = 1#3 → decode raw = .ok (.fencei (rdOf raw) (rs1Of raw) (immIOf raw)) ∧
      exec (.fencei (rdOf raw) (rs1Of raw) (immIOf raw)) s = .fault (.unimplementedInstruction s.pc raw))

/-- R232: a word with no mapping, fetched, ends the run with the faulting pc and the word. -/
def Obligations.InvalidWordsAreFatal : Prop :=
  ∀ s : State, s.pc.toNat + 4 ≤ s.cfg.memSize → (decodeRecord (wordAt s s.pc.toNat)).operation = .INVALID →
    step s = .fault (.unimplementedInstruction s.pc (wordAt s s.pc.toNat))

/-- 60_exceptions.md R242: exactly when `Fatal.MemoryOutOfBounds` is raised, by the fetch, by the five loads and by the three
stores, and what it carries (the spec's own decision D4, log entry 5). -/
def Obligations.MemoryOutOfBoundsExactly : Prop :=
  (∀ (i : Instr) (s : State) (kind : AccessKind) (a : Word) (n : Nat) (p : Word),
    exec i s = .fault (.memoryOutOfBounds kind a n p) ↔
      dataAccess i s = some (kind, a, n) ∧ s.cfg.memSize < a.toNat + n ∧ p = s.pc) ∧
  (∀ (s : State) (a : Word) (n : Nat) (p : Word),
    step s = .fault (.memoryOutOfBounds .fetch a n p) ↔
      s.cfg.memSize < s.pc.toNat + 4 ∧ a = s.pc ∧ n = 4 ∧ p = s.pc)

/-- 60_exceptions.md R248 (the spec's own derivation): at most one condition a cycle, the first in order: the fetch bounds check; then the unimplemented operation; then the
bounds check of the data access; with none of them, the cycle completes. That an access out of bounds is a hard fault, and
what its condition carries (kind, address, width, pc), are the spec's own decision D4 (R242; log entry 5). -/
def Obligations.FatalConditionsInOrder : Prop :=
  ∀ s : State,
    (s.cfg.memSize < s.pc.toNat + 4 → step s = .fault (.memoryOutOfBounds .fetch s.pc 4 s.pc)) ∧
    (s.pc.toNat + 4 ≤ s.cfg.memSize →
      (Unimplemented (wordAt s s.pc.toNat) →
        step s = .fault (.unimplementedInstruction s.pc (wordAt s s.pc.toNat))) ∧
      (¬Unimplemented (wordAt s s.pc.toNat) → ∃ i, decode (wordAt s s.pc.toNat) = .ok i ∧
        (∀ kind a n, dataAccess i s = some (kind, a, n) → s.cfg.memSize < a.toNat + n →
          step s = .fault (.memoryOutOfBounds kind a n s.pc)) ∧
        ((∀ kind a n, dataAccess i s = some (kind, a, n) → a.toNat + n ≤ s.cfg.memSize) → ∃ t, step s = .next t)))

/-- 60_exceptions.md R240: a cycle has two outcomes, a next state or one fatal condition. Refusals are the model's own third
outcome, which the spec does not have; that no cycle takes it is the model's choice (DESIGN CHOICE, log entry 22). -/
def Obligations.NoCycleIsRefused : Prop := ∀ (s : State) (r : Refusal), step s ≠ .refused r

/-! ### The cycle and the whole machine -/

/-- 40_cycle.md R120 to R124: where the four bytes at the pc are in bounds and decode, the cycle is that instruction's `exec`, with nothing
added around it. -/
def Obligations.StepRunsTheDecodedInstruction : Prop :=
  ∀ (s : State) (i : Instr), s.pc.toNat + 4 ≤ s.cfg.memSize →
    decode (wordOfBytes (s.mem.readByte s.pc.toNat) (s.mem.readByte (s.pc.toNat + 1))
      (s.mem.readByte (s.pc.toNat + 2)) (s.mem.readByte (s.pc.toNat + 3))) = .ok i →
    step s = exec i s

/-- R129: the nop loaded at address 0 of a machine just created leaves every register 0 and the pc at 4, whatever the capacity
that holds it and whatever `PCREL_BASE`. -/
def Obligations.NopScenario : Prop :=
  ∀ cfg : Config, 4 ≤ cfg.memSize → cfg.entryPc = 0#32 → ∃ s t,
    (State.created cfg).loadWord 0#32 0x00000013#32 = .ok s ∧ s.pc = 0#32 ∧ wordAt s 0 = 0x00000013#32 ∧
    step s = .next t ∧ (∀ r, t.readReg r = 0#32) ∧ t.pc = 4#32

/-- 10_state.md R27: how each instruction advances the pc (JALR's target is the spec's own decision D15, log entry 8). -/
def Obligations.HowThePcAdvances : Prop :=
  ∀ (i : Instr) (s t : State), exec i s = .next t →
    match i with
    | .jal _ imm => PcIs t (s.pc.toNat + adj s + signedField imm)
    | .jalr _ _ rs1 imm => (t.pc.toNat : Int) = ((s.readReg rs1).toNat + signedField imm) % 2 ^ 32 / 2 * 2
    | _ => (branchOf i s = none → FallsThrough s t) ∧ ∀ taken offset, branchOf i s = some (taken, offset) →
        (taken → PcIs t (s.pc.toNat + adj s + offset)) ∧ (¬taken → FallsThrough s t)

/-- A byte of memory changes in a cycle only if the cycle's instruction is a store and the byte is one it stores to
(20_memory.md R45, R48, R49). -/
def Obligations.OnlyStoresChangeMemory : Prop :=
  ∀ (s t : State) (a : Nat), step s = .next t → t.mem.readByte a ≠ s.mem.readByte a →
    ∃ i addr n, decode (wordAt s s.pc.toNat) = .ok i ∧ dataAccess i s = some (.store, addr, n) ∧
      addr.toNat ≤ a ∧ a < addr.toNat + n ∧ a < s.cfg.memSize

/-- A register changes in a cycle only if it is the decoded record's `rd`, and register 0 never does (10_state.md R21, R22). -/
def Obligations.OnlyRdChanges : Prop :=
  ∀ (s t : State) (r : RegIdx), step s = .next t → t.readReg r ≠ s.readReg r →
    (decodeRecord (wordAt s s.pc.toNat)).rd = some r ∧ r ≠ 0#5

/-- No cycle changes `MEM_SIZE`, `ENTRY_PC` or `PCREL_BASE` (00_scope.md R10: "never resized"; 70_reset_and_hazards.md
R282). -/
def Obligations.ParametersNeverChange : Prop := ∀ s t : State, step s = .next t → t.cfg = s.cfg

/-- Creation answers for exactly the configurations R10 allows (U12), and what it answers is the creation state with the
parameters the host chose (70_reset_and_hazards.md R270, R273 (1)), which has the invariant; and so has reset. -/
def Obligations.CreationEstablishesTheInvariant : Prop :=
  (∀ cfg : Config, (∃ s, hostCreate cfg = some s) ↔ 1 ≤ cfg.memSize ∧ cfg.memSize ≤ 2 ^ 32) ∧
  (∀ (cfg : Config) (s : State), hostCreate cfg = some s → s = State.created cfg ∧ s.Inv) ∧ State.reset.Inv

/-- Tier 3: every cycle keeps the invariant: a configuration R10 allows, memory canonical and inside `[0, MEM_SIZE)`, storage
slot 0 of the register file at 0. -/
def Obligations.StepKeepsTheInvariant : Prop := ∀ s t : State, s.Inv → step s = .next t → t.Inv

/-- 20_memory.md R59 (the spec's own derivation): a word stored at the next pc is what the next cycle fetches, and its
instruction is what the next cycle runs. -/
def Obligations.StoreIsSeenByTheNextFetch : Prop :=
  ∀ (s t : State) (rs1 rs2 : RegIdx) (imm : BitVec 12), s.mem.wf → exec (.sw rs1 rs2 imm) s = .next t →
    s.effAddr rs1 imm = s.pc + 4#32 → t.pc = s.pc + 4#32 ∧ t.fetch = .ok (s.readReg rs2) ∧
      ∀ i, decode (s.readReg rs2) = .ok i → step t = exec i t

/-- 70_reset_and_hazards.md R274: the loader's words, stored with `MemWrite(a, 4, word)` one after the other, are what a fetch
at each address reads; it changes nothing else, the parameters included, and keeps the invariant. Words that do not fit stop
it under the engine's own bounds rule at the first that passes `MEM_SIZE`. What that condition carries (log entry 26), and
that a list running past the top of the address space stops there too (log entry 27), are the model's choices. -/
def Obligations.LoadedWordsAreFetched : Prop :=
  ∀ (s : State) (a : Nat) (ws : List Word), s.Inv →
    (a + 4 * ws.length ≤ s.cfg.memSize → ∃ t, s.loadWords a ws = .ok t ∧ t.Inv ∧ t.pc = s.pc ∧ t.cfg = s.cfg ∧
      SameRegisters s t ∧
      (∀ k, ∀ h : k < ws.length, wordAt t (a + 4 * k) = ws[k] ∧
        (t.setEntry (BitVec.ofNat 32 (a + 4 * k))).fetch = .ok ws[k]) ∧
      ∀ b, b < a ∨ a + 4 * ws.length ≤ b → t.mem.readByte b = s.mem.readByte b) ∧
    (ws ≠ [] → s.cfg.memSize < a + 4 * ws.length →
      s.loadWords a ws =
        .error (.memoryOutOfBounds .store (BitVec.ofNat 32 (a + 4 * ((s.cfg.memSize - a) / 4))) 4 s.pc))

/-- 60_exceptions.md R240 to R242 and 70_reset_and_hazards.md R275, R277: which states end a run, and how. A run that reaches a
state whose fetch is out of bounds, whose word is FENCE, FENCEI or has no mapping (the zero word of memory nothing has
filled is one), or whose load or store is out of bounds, is over there with that condition, at every later count of cycles;
and what it answers is no successful end: every successful end of that run is a state it reached by then. That a fatal condition is
terminal, and what a successful end is, are the spec's own decisions D7 and D19 (log entries 14, 24); what the bounds
condition carries is D4 (log entry 5). -/
def Obligations.FatalConditionsEndTheRun : Prop :=
  Unimplemented 0#32 ∧
  ∀ (s t : State) (k : Nat), Sys2Proof.core.run k s = .next t →
    (t.cfg.memSize < t.pc.toNat + 4 → RunIsOverAt k s (.memoryOutOfBounds .fetch t.pc 4 t.pc)) ∧
    (t.pc.toNat + 4 ≤ t.cfg.memSize →
      (Unimplemented (wordAt t t.pc.toNat) → RunIsOverAt k s (.unimplementedInstruction t.pc (wordAt t t.pc.toNat))) ∧
      ∀ i kind a n, decode (wordAt t t.pc.toNat) = .ok i → dataAccess i t = some (kind, a, n) →
        t.cfg.memSize < a.toNat + n → RunIsOverAt k s (.memoryOutOfBounds kind a n t.pc))
end

