-- ==== Sys2Proof/Laws/Decode.lean ====
section
/-! SUPPORT. What the decoder answers inside each group of primary opcodes (30_encoding.md R95 to R103), so that no proof
unfolds the whole of `decode`. -/

namespace Sys2Proof

variable {raw : Word}

theorem decode_lui (h : opcodeOf raw = opLUI) : decode raw = .ok (.lui (rdOf raw) (imm20Of raw)) := by
  unfold decode; rw [h]; rfl
theorem decode_auipc (h : opcodeOf raw = opAUIPC) : decode raw = .ok (.auipc (rdOf raw) (imm20Of raw)) := by
  unfold decode; rw [h]; rfl
theorem decode_jal (h : opcodeOf raw = opJAL) : decode raw = .ok (.jal (rdOf raw) (immJOf raw)) := by
  unfold decode; rw [h]; rfl
theorem decode_jalr (h : opcodeOf raw = opJALR) :
    decode raw = .ok (.jalr (funct3Of raw) (rdOf raw) (rs1Of raw) (immIOf raw)) := by unfold decode; rw [h]; rfl
theorem decode_branch (h : opcodeOf raw = opBRANCH) : decode raw = decodeBranch raw := by unfold decode; rw [h]; rfl
theorem decode_load (h : opcodeOf raw = opLOAD) : decode raw = decodeLoad raw := by unfold decode; rw [h]; rfl
theorem decode_store (h : opcodeOf raw = opSTORE) : decode raw = decodeStore raw := by unfold decode; rw [h]; rfl
theorem decode_arithImm (h : opcodeOf raw = opARITHIMM) : decode raw = .ok (decodeArithImm raw) := by
  unfold decode; rw [h]; rfl
theorem decode_arith (h : opcodeOf raw = opARITH) : decode raw = .ok (decodeArith raw) := by unfold decode; rw [h]; rfl
theorem decode_fence (h : opcodeOf raw = opFENCE) : decode raw = decodeFence raw := by unfold decode; rw [h]; rfl

end Sys2Proof
end

