-- ==== Sys2Proof/Laws/Encoding.lean ====
section
/-! SUPPORT. What each field extractor (30_encoding.md R71, R74 to R78) reads from a word laid out by each format, and that
a word is laid out again by its own fields. Each is proved by peeling the layout from its low end. -/

namespace Sys2Proof

/-- The lowest field of a layout. -/
theorem field_low {v w : Nat} {hi : BitVec v} {lo : BitVec w} : (hi ++ lo).extractLsb' 0 w = lo := by
  rw [BitVec.extractLsb'_append_eq_of_add_le (by omega), BitVec.extractLsb'_eq_self]

/-- A field that lies above the lowest one. -/
theorem field_above {v w start n : Nat} {hi : BitVec v} {lo : BitVec w} (h : w ≤ start) :
    (hi ++ lo).extractLsb' start n = hi.extractLsb' (start - w) n := BitVec.extractLsb'_append_eq_of_le h

section R
variable (f7 : BitVec 7) (rs2 rs1 : RegIdx) (f3 : BitVec 3) (rd : RegIdx) (op : BitVec 7)

@[simp] theorem opcodeOf_wordR : opcodeOf (wordR f7 rs2 rs1 f3 rd op) = op := field_low
@[simp] theorem rdOf_wordR : rdOf (wordR f7 rs2 rs1 f3 rd op) = rd :=
  (field_above (w := 7) (by decide)).trans field_low
@[simp] theorem funct3Of_wordR : funct3Of (wordR f7 rs2 rs1 f3 rd op) = f3 :=
  (field_above (w := 7) (by decide)).trans ((field_above (w := 5) (by decide)).trans field_low)
@[simp] theorem rs1Of_wordR : rs1Of (wordR f7 rs2 rs1 f3 rd op) = rs1 :=
  (field_above (w := 7) (by decide)).trans ((field_above (w := 5) (by decide)).trans
    ((field_above (w := 3) (by decide)).trans field_low))
@[simp] theorem rs2Of_wordR : rs2Of (wordR f7 rs2 rs1 f3 rd op) = rs2 :=
  (field_above (w := 7) (by decide)).trans ((field_above (w := 5) (by decide)).trans
    ((field_above (w := 3) (by decide)).trans ((field_above (w := 5) (by decide)).trans field_low)))
@[simp] theorem shamtOf_wordR : shamtOf (wordR f7 rs2 rs1 f3 rd op) = rs2 := rs2Of_wordR f7 rs2 rs1 f3 rd op
@[simp] theorem funct7Of_wordR : funct7Of (wordR f7 rs2 rs1 f3 rd op) = f7 :=
  (field_above (w := 7) (by decide)).trans ((field_above (w := 5) (by decide)).trans
    ((field_above (w := 3) (by decide)).trans ((field_above (w := 5) (by decide)).trans
      ((field_above (w := 5) (by decide)).trans BitVec.extractLsb'_eq_self))))
end R

section I
variable (imm : BitVec 12) (rs1 : RegIdx) (f3 : BitVec 3) (rd : RegIdx) (op : BitVec 7)

@[simp] theorem opcodeOf_wordI : opcodeOf (wordI imm rs1 f3 rd op) = op := field_low
@[simp] theorem rdOf_wordI : rdOf (wordI imm rs1 f3 rd op) = rd :=
  (field_above (w := 7) (by decide)).trans field_low
@[simp] theorem funct3Of_wordI : funct3Of (wordI imm rs1 f3 rd op) = f3 :=
  (field_above (w := 7) (by decide)).trans ((field_above (w := 5) (by decide)).trans field_low)
@[simp] theorem rs1Of_wordI : rs1Of (wordI imm rs1 f3 rd op) = rs1 :=
  (field_above (w := 7) (by decide)).trans ((field_above (w := 5) (by decide)).trans
    ((field_above (w := 3) (by decide)).trans field_low))
@[simp] theorem immIOf_wordI : immIOf (wordI imm rs1 f3 rd op) = imm :=
  (field_above (w := 7) (by decide)).trans ((field_above (w := 5) (by decide)).trans
    ((field_above (w := 3) (by decide)).trans ((field_above (w := 5) (by decide)).trans BitVec.extractLsb'_eq_self)))
end I

section S
variable (imm : BitVec 12) (rs2 rs1 : RegIdx) (f3 : BitVec 3) (op : BitVec 7)

@[simp] theorem opcodeOf_wordS : opcodeOf (wordS imm rs2 rs1 f3 op) = op := field_low
@[simp] theorem funct3Of_wordS : funct3Of (wordS imm rs2 rs1 f3 op) = f3 :=
  (field_above (w := 7) (by decide)).trans ((field_above (w := 5) (by decide)).trans field_low)
@[simp] theorem rs1Of_wordS : rs1Of (wordS imm rs2 rs1 f3 op) = rs1 :=
  (field_above (w := 7) (by decide)).trans ((field_above (w := 5) (by decide)).trans
    ((field_above (w := 3) (by decide)).trans field_low))
@[simp] theorem rs2Of_wordS : rs2Of (wordS imm rs2 rs1 f3 op) = rs2 :=
  (field_above (w := 7) (by decide)).trans ((field_above (w := 5) (by decide)).trans
    ((field_above (w := 3) (by decide)).trans ((field_above (w := 5) (by decide)).trans field_low)))
@[simp] theorem immSOf_wordS : immSOf (wordS imm rs2 rs1 f3 op) = imm := by
  have lo : (wordS imm rs2 rs1 f3 op).extractLsb' 7 5 = imm.extractLsb' 0 5 :=
    (field_above (w := 7) (by decide)).trans field_low
  have hi : (wordS imm rs2 rs1 f3 op).extractLsb' 25 7 = imm.extractLsb' 5 7 :=
    (field_above (w := 7) (by decide)).trans ((field_above (w := 5) (by decide)).trans
      ((field_above (w := 3) (by decide)).trans ((field_above (w := 5) (by decide)).trans
        ((field_above (w := 5) (by decide)).trans BitVec.extractLsb'_eq_self))))
  rw [immSOf, lo, hi]
  exact (BitVec.extractLsb'_append_extractLsb'_eq_extractLsb' (by decide)).trans BitVec.extractLsb'_eq_self
end S

section B
variable (imm : BitVec 13) (rs2 rs1 : RegIdx) (f3 : BitVec 3) (op : BitVec 7)

@[simp] theorem opcodeOf_wordB : opcodeOf (wordB imm rs2 rs1 f3 op) = op := field_low
@[simp] theorem funct3Of_wordB : funct3Of (wordB imm rs2 rs1 f3 op) = f3 :=
  (field_above (w := 7) (by decide)).trans ((field_above (w := 1) (by decide)).trans
    ((field_above (w := 4) (by decide)).trans field_low))
@[simp] theorem rs1Of_wordB : rs1Of (wordB imm rs2 rs1 f3 op) = rs1 :=
  (field_above (w := 7) (by decide)).trans ((field_above (w := 1) (by decide)).trans
    ((field_above (w := 4) (by decide)).trans ((field_above (w := 3) (by decide)).trans field_low)))
@[simp] theorem rs2Of_wordB : rs2Of (wordB imm rs2 rs1 f3 op) = rs2 :=
  (field_above (w := 7) (by decide)).trans ((field_above (w := 1) (by decide)).trans
    ((field_above (w := 4) (by decide)).trans ((field_above (w := 3) (by decide)).trans
      ((field_above (w := 5) (by decide)).trans field_low))))
/-- The four slices of a branch offset come back in their places; bit 0 is zero in the layout (R76). -/
theorem immBOf_wordB (h : imm.getLsbD 0 = false) : immBOf (wordB imm rs2 rs1 f3 op) = imm := by
  have b11 : (wordB imm rs2 rs1 f3 op).extractLsb' 7 1 = imm.extractLsb' 11 1 :=
    (field_above (w := 7) (by decide)).trans field_low
  have b4 : (wordB imm rs2 rs1 f3 op).extractLsb' 8 4 = imm.extractLsb' 1 4 :=
    (field_above (w := 7) (by decide)).trans ((field_above (w := 1) (by decide)).trans field_low)
  have b10 : (wordB imm rs2 rs1 f3 op).extractLsb' 25 6 = imm.extractLsb' 5 6 :=
    (field_above (w := 7) (by decide)).trans ((field_above (w := 1) (by decide)).trans
      ((field_above (w := 4) (by decide)).trans ((field_above (w := 3) (by decide)).trans
        ((field_above (w := 5) (by decide)).trans ((field_above (w := 5) (by decide)).trans field_low)))))
  have b12 : (wordB imm rs2 rs1 f3 op).extractLsb' 31 1 = imm.extractLsb' 12 1 :=
    (field_above (w := 7) (by decide)).trans ((field_above (w := 1) (by decide)).trans
      ((field_above (w := 4) (by decide)).trans ((field_above (w := 3) (by decide)).trans
        ((field_above (w := 5) (by decide)).trans ((field_above (w := 5) (by decide)).trans
          ((field_above (w := 6) (by decide)).trans BitVec.extractLsb'_eq_self))))))
  have b0 : 0#1 = imm.extractLsb' 0 1 := by
    apply BitVec.eq_of_getLsbD_eq
    intro i hi
    obtain rfl : i = 0 := by omega
    simpa using h
  rw [immBOf, b11, b4, b10, b12, b0]
  rw [BitVec.extractLsb'_append_extractLsb'_eq_extractLsb' (by decide),
    BitVec.extractLsb'_append_extractLsb'_eq_extractLsb' (by decide),
    BitVec.extractLsb'_append_extractLsb'_eq_extractLsb' (by decide)]
  exact (BitVec.extractLsb'_append_extractLsb'_eq_extractLsb' (by decide)).trans BitVec.extractLsb'_eq_self
end B

section U
variable (imm : BitVec 20) (rd : RegIdx) (op : BitVec 7)

@[simp] theorem opcodeOf_wordU : opcodeOf (wordU imm rd op) = op := field_low
@[simp] theorem rdOf_wordU : rdOf (wordU imm rd op) = rd := (field_above (w := 7) (by decide)).trans field_low
@[simp] theorem imm20Of_wordU : imm20Of (wordU imm rd op) = imm :=
  (field_above (w := 7) (by decide)).trans ((field_above (w := 5) (by decide)).trans BitVec.extractLsb'_eq_self)
end U

section J
variable (imm : BitVec 21) (rd : RegIdx) (op : BitVec 7)

@[simp] theorem opcodeOf_wordJ : opcodeOf (wordJ imm rd op) = op := field_low
@[simp] theorem rdOf_wordJ : rdOf (wordJ imm rd op) = rd := (field_above (w := 7) (by decide)).trans field_low
/-- The four slices of a jump offset come back in their places; bit 0 is zero in the layout (R78). -/
theorem immJOf_wordJ (h : imm.getLsbD 0 = false) : immJOf (wordJ imm rd op) = imm := by
  have j19 : (wordJ imm rd op).extractLsb' 12 8 = imm.extractLsb' 12 8 :=
    (field_above (w := 7) (by decide)).trans ((field_above (w := 5) (by decide)).trans field_low)
  have j11 : (wordJ imm rd op).extractLsb' 20 1 = imm.extractLsb' 11 1 :=
    (field_above (w := 7) (by decide)).trans ((field_above (w := 5) (by decide)).trans
      ((field_above (w := 8) (by decide)).trans field_low))
  have j10 : (wordJ imm rd op).extractLsb' 21 10 = imm.extractLsb' 1 10 :=
    (field_above (w := 7) (by decide)).trans ((field_above (w := 5) (by decide)).trans
      ((field_above (w := 8) (by decide)).trans ((field_above (w := 1) (by decide)).trans field_low)))
  have j20 : (wordJ imm rd op).extractLsb' 31 1 = imm.extractLsb' 20 1 :=
    (field_above (w := 7) (by decide)).trans ((field_above (w := 5) (by decide)).trans
      ((field_above (w := 8) (by decide)).trans ((field_above (w := 1) (by decide)).trans
        ((field_above (w := 10) (by decide)).trans BitVec.extractLsb'_eq_self))))
  have j0 : 0#1 = imm.extractLsb' 0 1 := by
    apply BitVec.eq_of_getLsbD_eq
    intro i hi
    obtain rfl : i = 0 := by omega
    simpa using h
  rw [immJOf, j19, j11, j10, j20, j0]
  rw [BitVec.extractLsb'_append_extractLsb'_eq_extractLsb' (by decide),
    BitVec.extractLsb'_append_extractLsb'_eq_extractLsb' (by decide),
    BitVec.extractLsb'_append_extractLsb'_eq_extractLsb' (by decide)]
  exact (BitVec.extractLsb'_append_extractLsb'_eq_extractLsb' (by decide)).trans BitVec.extractLsb'_eq_self
end J

/-! ### A word is laid out again by its own fields -/

section own
variable (raw : Word)

theorem wordR_own : wordR (funct7Of raw) (rs2Of raw) (rs1Of raw) (funct3Of raw) (rdOf raw) (opcodeOf raw) = raw := by
  rw [wordR, funct7Of, rs2Of, rs1Of, funct3Of, rdOf, opcodeOf,
    BitVec.extractLsb'_append_extractLsb'_eq_extractLsb' (by decide),
    BitVec.extractLsb'_append_extractLsb'_eq_extractLsb' (by decide),
    BitVec.extractLsb'_append_extractLsb'_eq_extractLsb' (by decide),
    BitVec.extractLsb'_append_extractLsb'_eq_extractLsb' (by decide)]
  exact (BitVec.extractLsb'_append_extractLsb'_eq_extractLsb' (by decide)).trans BitVec.extractLsb'_eq_self

theorem wordI_own : wordI (immIOf raw) (rs1Of raw) (funct3Of raw) (rdOf raw) (opcodeOf raw) = raw := by
  rw [wordI, immIOf, rs1Of, funct3Of, rdOf, opcodeOf,
    BitVec.extractLsb'_append_extractLsb'_eq_extractLsb' (by decide),
    BitVec.extractLsb'_append_extractLsb'_eq_extractLsb' (by decide),
    BitVec.extractLsb'_append_extractLsb'_eq_extractLsb' (by decide)]
  exact (BitVec.extractLsb'_append_extractLsb'_eq_extractLsb' (by decide)).trans BitVec.extractLsb'_eq_self

theorem wordU_own : wordU (imm20Of raw) (rdOf raw) (opcodeOf raw) = raw := by
  rw [wordU, imm20Of, rdOf, opcodeOf, BitVec.extractLsb'_append_extractLsb'_eq_extractLsb' (by decide)]
  exact (BitVec.extractLsb'_append_extractLsb'_eq_extractLsb' (by decide)).trans BitVec.extractLsb'_eq_self

theorem wordS_own : wordS (immSOf raw) (rs2Of raw) (rs1Of raw) (funct3Of raw) (opcodeOf raw) = raw := by
  have lo : (immSOf raw).extractLsb' 0 5 = rdOf raw := field_low
  have hi : (immSOf raw).extractLsb' 5 7 = funct7Of raw :=
    (field_above (w := 5) (by decide)).trans BitVec.extractLsb'_eq_self
  rw [wordS, lo, hi]
  exact wordR_own raw

theorem wordB_own : wordB (immBOf raw) (rs2Of raw) (rs1Of raw) (funct3Of raw) (opcodeOf raw) = raw := by
  have b4 : (immBOf raw).extractLsb' 1 4 = raw.extractLsb' 8 4 := (field_above (w := 1) (by decide)).trans field_low
  have b10 : (immBOf raw).extractLsb' 5 6 = raw.extractLsb' 25 6 :=
    (field_above (w := 1) (by decide)).trans ((field_above (w := 4) (by decide)).trans field_low)
  have b11 : (immBOf raw).extractLsb' 11 1 = raw.extractLsb' 7 1 :=
    (field_above (w := 1) (by decide)).trans ((field_above (w := 4) (by decide)).trans
      ((field_above (w := 6) (by decide)).trans field_low))
  have b12 : (immBOf raw).extractLsb' 12 1 = raw.extractLsb' 31 1 :=
    (field_above (w := 1) (by decide)).trans ((field_above (w := 4) (by decide)).trans
      ((field_above (w := 6) (by decide)).trans ((field_above (w := 1) (by decide)).trans BitVec.extractLsb'_eq_self)))
  rw [wordB, b4, b10, b11, b12, rs2Of, rs1Of, funct3Of, opcodeOf,
    BitVec.extractLsb'_append_extractLsb'_eq_extractLsb' (by decide),
    BitVec.extractLsb'_append_extractLsb'_eq_extractLsb' (by decide),
    BitVec.extractLsb'_append_extractLsb'_eq_extractLsb' (by decide),
    BitVec.extractLsb'_append_extractLsb'_eq_extractLsb' (by decide),
    BitVec.extractLsb'_append_extractLsb'_eq_extractLsb' (by decide),
    BitVec.extractLsb'_append_extractLsb'_eq_extractLsb' (by decide)]
  exact (BitVec.extractLsb'_append_extractLsb'_eq_extractLsb' (by decide)).trans BitVec.extractLsb'_eq_self

theorem wordJ_own : wordJ (immJOf raw) (rdOf raw) (opcodeOf raw) = raw := by
  have j10 : (immJOf raw).extractLsb' 1 10 = raw.extractLsb' 21 10 :=
    (field_above (w := 1) (by decide)).trans field_low
  have j11 : (immJOf raw).extractLsb' 11 1 = raw.extractLsb' 20 1 :=
    (field_above (w := 1) (by decide)).trans ((field_above (w := 10) (by decide)).trans field_low)
  have j19 : (immJOf raw).extractLsb' 12 8 = raw.extractLsb' 12 8 :=
    (field_above (w := 1) (by decide)).trans ((field_above (w := 10) (by decide)).trans
      ((field_above (w := 1) (by decide)).trans field_low))
  have j20 : (immJOf raw).extractLsb' 20 1 = raw.extractLsb' 31 1 :=
    (field_above (w := 1) (by decide)).trans ((field_above (w := 10) (by decide)).trans
      ((field_above (w := 1) (by decide)).trans ((field_above (w := 8) (by decide)).trans BitVec.extractLsb'_eq_self)))
  rw [wordJ, j10, j11, j19, j20, rdOf, opcodeOf,
    BitVec.extractLsb'_append_extractLsb'_eq_extractLsb' (by decide),
    BitVec.extractLsb'_append_extractLsb'_eq_extractLsb' (by decide),
    BitVec.extractLsb'_append_extractLsb'_eq_extractLsb' (by decide),
    BitVec.extractLsb'_append_extractLsb'_eq_extractLsb' (by decide)]
  exact (BitVec.extractLsb'_append_extractLsb'_eq_extractLsb' (by decide)).trans BitVec.extractLsb'_eq_self

/-- A branch offset as the decoder assembles it is even (R76). -/
theorem immBOf_even : (immBOf raw).getLsbD 0 = false := by
  have h : (immBOf raw).extractLsb' 0 1 = 0#1 := field_low
  simpa using congrArg (fun b : BitVec 1 => b.getLsbD 0) h

/-- A jump offset as the decoder assembles it is even (R78). -/
theorem immJOf_even : (immJOf raw).getLsbD 0 = false := by
  have h : (immJOf raw).extractLsb' 0 1 = 0#1 := field_low
  simpa using congrArg (fun b : BitVec 1 => b.getLsbD 0) h
end own

section bytes
variable (b0 b1 b2 b3 : Byte) (raw : Word)

/-- The bytes of a little-endian word are the bytes it was made of (R41). -/
theorem bytesOfWord_wordOfBytes : bytesOfWord (wordOfBytes b0 b1 b2 b3) = [b0, b1, b2, b3] := by
  have h0 : (wordOfBytes b0 b1 b2 b3).extractLsb' 0 8 = b0 := field_low
  have h1 : (wordOfBytes b0 b1 b2 b3).extractLsb' 8 8 = b1 := (field_above (w := 8) (by decide)).trans field_low
  have h2 : (wordOfBytes b0 b1 b2 b3).extractLsb' 16 8 = b2 :=
    (field_above (w := 8) (by decide)).trans ((field_above (w := 8) (by decide)).trans field_low)
  have h3 : (wordOfBytes b0 b1 b2 b3).extractLsb' 24 8 = b3 :=
    (field_above (w := 8) (by decide)).trans ((field_above (w := 8) (by decide)).trans
      ((field_above (w := 8) (by decide)).trans BitVec.extractLsb'_eq_self))
  rw [bytesOfWord, h0, h1, h2, h3]

/-- A word is the little-endian word of its own bytes (R40). -/
theorem wordOfBytes_bytes : wordOfBytes (raw.extractLsb' 0 8) (raw.extractLsb' 8 8) (raw.extractLsb' 16 8)
    (raw.extractLsb' 24 8) = raw := by
  rw [wordOfBytes, BitVec.extractLsb'_append_extractLsb'_eq_extractLsb' (by decide),
    BitVec.extractLsb'_append_extractLsb'_eq_extractLsb' (by decide)]
  exact (BitVec.extractLsb'_append_extractLsb'_eq_extractLsb' (by decide)).trans BitVec.extractLsb'_eq_self
end bytes

end Sys2Proof
end

