-- ==== Sys2Proof/Laws/State.lean ====
section
/-! SUPPORT. One lemma per field of State per update, so that no proof unfolds a record update; and what the register
file answers after a write. -/

namespace Sys2Proof.Machine

variable (s : State) (i j : RegIdx) (v t : Word) (m : Memory)

@[simp] theorem setPc_regs : (s.setPc t).regs = s.regs := rfl
@[simp] theorem setPc_pc : (s.setPc t).pc = t := rfl
@[simp] theorem setPc_mem : (s.setPc t).mem = s.mem := rfl
@[simp] theorem setPc_cfg : (s.setPc t).cfg = s.cfg := rfl

@[simp] theorem advance_regs : s.advance.regs = s.regs := rfl
@[simp] theorem advance_pc : s.advance.pc = s.pc + 4#32 := rfl
@[simp] theorem advance_mem : s.advance.mem = s.mem := rfl
@[simp] theorem advance_cfg : s.advance.cfg = s.cfg := rfl

@[simp] theorem setMem_regs : (s.setMem m).regs = s.regs := rfl
@[simp] theorem setMem_pc : (s.setMem m).pc = s.pc := rfl
@[simp] theorem setMem_mem : (s.setMem m).mem = m := rfl
@[simp] theorem setMem_cfg : (s.setMem m).cfg = s.cfg := rfl

@[simp] theorem writeReg_pc : (s.writeReg i v).pc = s.pc := by unfold State.writeReg; split <;> rfl
@[simp] theorem writeReg_mem : (s.writeReg i v).mem = s.mem := by unfold State.writeReg; split <;> rfl
@[simp] theorem writeReg_cfg : (s.writeReg i v).cfg = s.cfg := by unfold State.writeReg; split <;> rfl

@[simp] theorem readReg_setPc : (s.setPc t).readReg i = s.readReg i := rfl
@[simp] theorem readReg_advance : s.advance.readReg i = s.readReg i := rfl
@[simp] theorem readReg_setMem : (s.setMem m).readReg i = s.readReg i := rfl

/-- Register 0 reads as 0 whatever the state (R21). -/
@[simp] theorem readReg_zero : s.readReg 0#5 = 0#32 := by simp [State.readReg]

/-- Register 0 discards a write (R22). -/
@[simp] theorem writeReg_zero : s.writeReg 0#5 v = s := by simp [State.writeReg]

/-- A write to register 1 to 31 is read back. -/
theorem readReg_writeReg_same (h : i ≠ 0#5) : (s.writeReg i v).readReg i = v := by
  simp [State.readReg, State.writeReg, h]

/-- A write leaves every other register alone. -/
theorem readReg_writeReg_other (h : j ≠ i) : (s.writeReg i v).readReg j = s.readReg j := by
  have hne : i.toNat ≠ j.toNat := fun e => h (BitVec.eq_of_toNat_eq e.symm)
  unfold State.readReg State.writeReg
  split
  · rfl
  · split
    · rfl
    · exact Vector.getElem_set_ne i.isLt j.isLt hne

/-- Slot 0 of the register file is never written. -/
theorem writeReg_slot_zero : (s.writeReg i v).regs[0] = s.regs[0] := by
  unfold State.writeReg
  split
  · rfl
  · rename_i h
    have hne : i.toNat ≠ 0 := fun e => h (BitVec.eq_of_toNat_eq e)
    exact Vector.getElem_set_ne i.isLt (by decide) hne

/-- With a 5-bit index the register file's guard passes (R243). -/
theorem readRegGuarded_toNat : s.readRegGuarded i.toNat = .ok (s.readReg i) := by
  simp [State.readRegGuarded, i.isLt]

end Sys2Proof.Machine
end

