-- ==== Sys2Proof/Laws/Memory.lean ====
section
/-! SUPPORT. Laws of memory: read after write, what a write leaves alone, that every operation keeps the canonical
form and stays inside memory, and that a little-endian write is read back. -/

namespace Sys2Proof.Machine

/-! ### One byte -/

/-- No cell below every listed address reads as listed. -/
theorem lookup_of_lt (cells : List Host.Cell) (a : Nat) (h : ∀ c ∈ cells, a < c.1) :
    Memory.lookup cells a = Memory.unlisted := by
  induction cells with
  | nil => rfl
  | cons c rest ih =>
    have hc : a ≠ c.1 := Nat.ne_of_lt (h c (by simp))
    simpa [Memory.lookup, hc] using ih fun d hd => h d (by simp [hd])

theorem lookup_insert_other (cells : List Host.Cell) (a a' : Nat) (b : Byte) (h : a' ≠ a) :
    Memory.lookup (Memory.insert cells a b) a' = Memory.lookup cells a' := by
  induction cells with
  | nil => simp only [Memory.insert]; split <;> simp [Memory.lookup, h]
  | cons c rest ih =>
    simp only [Memory.insert]
    repeat' split
    all_goals simp_all [Memory.lookup]

theorem lookup_insert_same (cells : List Host.Cell) (a : Nat) (b : Byte)
    (h : cells.Pairwise (fun p q => p.1 < q.1)) : Memory.lookup (Memory.insert cells a b) a = b := by
  induction cells with
  | nil => simp only [Memory.insert]; split <;> simp_all [Memory.lookup]
  | cons c rest ih =>
    have hr : ∀ d ∈ rest, c.1 < d.1 := fun d hd => List.rel_of_pairwise_cons h hd
    simp only [Memory.insert]
    split
    · rename_i hlt
      split
      · rename_i hb
        rw [hb]
        refine lookup_of_lt _ _ fun d hd => ?_
        rcases List.mem_cons.1 hd with rfl | hd
        · exact hlt
        · exact Nat.lt_trans hlt (hr d hd)
      · simp [Memory.lookup]
    · split
      · rename_i ha
        split
        · rename_i hb
          rw [hb]
          exact lookup_of_lt _ _ fun d hd => ha ▸ hr d hd
        · simp [Memory.lookup]
      · rename_i ha
        simpa [Memory.lookup, ha] using ih h.of_cons

/-- Every cell after an insertion is an old one or the new one. -/
theorem mem_insert (cells : List Host.Cell) (a : Nat) (b : Byte) (c : Host.Cell)
    (h : c ∈ Memory.insert cells a b) : c ∈ cells ∨ (c = (a, b) ∧ b ≠ Memory.unlisted) := by
  induction cells with
  | nil => simp only [Memory.insert] at h; split at h <;> simp_all
  | cons d rest ih =>
    simp only [Memory.insert] at h
    repeat' split at h
    all_goals simp only [List.mem_cons] at h ⊢
    all_goals tauto

theorem insert_sorted (cells : List Host.Cell) (a : Nat) (b : Byte) (h : cells.Pairwise (fun p q => p.1 < q.1)) :
    (Memory.insert cells a b).Pairwise (fun p q => p.1 < q.1) := by
  induction cells with
  | nil => simp only [Memory.insert]; split <;> simp
  | cons d rest ih =>
    have hr : ∀ c ∈ rest, d.1 < c.1 := fun c hc => List.rel_of_pairwise_cons h hc
    simp only [Memory.insert]
    split
    · rename_i hlt
      split
      · exact h
      · refine List.Pairwise.cons (fun c hc => ?_) h
        rcases List.mem_cons.1 hc with rfl | hc
        · exact hlt
        · exact Nat.lt_trans hlt (hr c hc)
    · split
      · rename_i ha
        split
        · exact h.of_cons
        · exact List.Pairwise.cons (fun c hc => ha ▸ hr c hc) h.of_cons
      · refine List.Pairwise.cons (fun c hc => ?_) (ih h.of_cons)
        rcases mem_insert _ _ _ _ hc with hc | ⟨rfl, -⟩
        · exact hr c hc
        · simp only; omega

/-- Read after write, the same address; memory in canonical form. -/
theorem readByte_writeByte_same (m : Memory) (a : Nat) (b : Byte) (h : m.wf) : (m.writeByte a b).readByte a = b :=
  lookup_insert_same _ _ _ h.1

/-- A write leaves every other address alone, whatever the memory. -/
theorem readByte_writeByte_other (m : Memory) (a a' : Nat) (b : Byte) (h : a' ≠ a) :
    (m.writeByte a b).readByte a' = m.readByte a' := lookup_insert_other _ _ _ _ h

/-- A one-byte write keeps the canonical form. -/
theorem writeByte_wf (m : Memory) (a : Nat) (b : Byte) (h : m.wf) : (m.writeByte a b).wf := by
  refine ⟨insert_sorted _ _ _ h.1, fun c hc => ?_⟩
  rcases mem_insert _ _ _ _ hc with hc | ⟨rfl, hb⟩
  · exact h.2 c hc
  · exact hb

/-- A one-byte write inside memory stays inside. -/
theorem writeByte_within (m : Memory) (size a : Nat) (b : Byte) (h : m.within size) (ha : a < size) :
    (m.writeByte a b).within size := fun c hc => by
  rcases mem_insert _ _ _ _ hc with hc | ⟨rfl, -⟩
  · exact h c hc
  · exact ha

/-! ### n bytes -/

theorem writeLE_wf (n : Nat) : ∀ (m : Memory) (a : Nat) (v : Word), m.wf → (m.writeLE a n v).wf := by
  induction n with
  | zero => exact fun _ _ _ h => h
  | succ n ih => exact fun m a v h => ih _ _ _ (writeByte_wf m a _ h)

theorem writeLE_within (size n : Nat) :
    ∀ (m : Memory) (a : Nat) (v : Word), m.within size → a + n ≤ size → (m.writeLE a n v).within size := by
  induction n with
  | zero => exact fun _ _ _ h _ => h
  | succ n ih => exact fun m a v h ha => ih _ _ _ (writeByte_within m size a _ h (by omega)) (by omega)

/-- A little-endian write leaves every byte outside it alone (R45). -/
theorem readByte_writeLE_outside (n : Nat) : ∀ (m : Memory) (a a' : Nat) (v : Word), a' < a ∨ a + n ≤ a' →
    (m.writeLE a n v).readByte a' = m.readByte a' := by
  induction n with
  | zero => exact fun _ _ _ _ _ => rfl
  | succ n ih =>
    intro m a a' v h
    rw [Memory.writeLE, ih _ _ _ _ (by omega), readByte_writeByte_other _ _ _ _ (by omega)]

/-- Byte `i` of the value written lands at `a + i` (R40, R45). -/
theorem readByte_writeLE_inside (n : Nat) : ∀ (m : Memory) (a i : Nat) (v : Word), m.wf → i < n →
    (m.writeLE a n v).readByte (a + i) = (v >>> (8 * i)).setWidth 8 := by
  induction n with
  | zero => intro _ _ i _ _ h; omega
  | succ n ih =>
    intro m a i v hm hi
    cases i with
    | zero =>
      rw [Memory.writeLE, readByte_writeLE_outside _ _ _ _ _ (by omega), Nat.add_zero,
        readByte_writeByte_same _ _ _ hm]
      simp
    | succ i =>
      rw [Memory.writeLE, show a + (i + 1) = a + 1 + i by omega, ih _ _ _ _ (writeByte_wf _ _ _ hm) (by omega),
        ← BitVec.shiftRight_add]
      congr 2
      omega

/-- Two memories that agree on the bytes read give the same value. -/
theorem readLE_congr (m m' : Memory) (n : Nat) : ∀ a, (∀ i, i < n → m.readByte (a + i) = m'.readByte (a + i)) →
    m.readLE a n = m'.readLE a n := by
  induction n with
  | zero => exact fun _ _ => rfl
  | succ n ih =>
    intro a h
    rw [Memory.readLE, Memory.readLE, ih (a + 1) fun i hi => by rw [Nat.add_assoc, Nat.add_comm 1]; exact h _ (by omega)]
    have h0 := h 0 (by omega)
    rw [Nat.add_zero] at h0
    rw [h0]

/-- A one-byte read is the byte, zero-extended. -/
theorem readLE_one (m : Memory) (a : Nat) : m.readLE a 1 = zext (m.readByte a) := by
  simp [Memory.readLE]

/-- A byte below the bytes already read: the next one up is appended above it. -/
theorem zext_or_shift {k : Nat} (x : BitVec k) (y : Byte) :
    (zext y ||| (zext x <<< 8)) = zext (x ++ y) := by
  simp only [zext]
  apply BitVec.eq_of_getLsbD_eq
  intro i hi
  simp only [BitVec.getLsbD_or, BitVec.getLsbD_setWidth, BitVec.getLsbD_shiftLeft, BitVec.getLsbD_append]
  by_cases h : i < 8
  · simp [h, hi]
  · have hy : y.getLsbD i = false := BitVec.getLsbD_of_ge _ _ (by omega)
    simp [h, hy, hi, show i - 8 < 32 by omega]

/-- A two-byte read puts the byte at the lower address in the low half (R40). -/
theorem readLE_two (m : Memory) (a : Nat) : m.readLE a 2 = zext (m.readByte (a + 1) ++ m.readByte a) := by
  rw [Memory.readLE, readLE_one, zext_or_shift]

/-- A four-byte read is the little-endian word of the four bytes (R40, R41). -/
theorem readLE_four (m : Memory) (a : Nat) : m.readLE a 4 =
    wordOfBytes (m.readByte a) (m.readByte (a + 1)) (m.readByte (a + 2)) (m.readByte (a + 3)) := by
  rw [Memory.readLE, Memory.readLE, readLE_two, zext_or_shift, zext_or_shift]
  exact BitVec.setWidth_eq _

end Sys2Proof.Machine
end

