-- ==== Sys2Proof/Laws/Operands.lean ====
section
/-! SUPPORT. What each comparison, shift amount and width answers, as a number or a relation. -/

namespace Sys2Proof.Machine

variable (a b : Word)

@[simp] theorem condEq_iff : condEq a b = true ↔ a = b := by simp [condEq]
@[simp] theorem condLt_iff : condLt a b = true ↔ a.toInt < b.toInt := by simp [condLt, BitVec.slt]
@[simp] theorem condLtu_iff : condLtu a b = true ↔ a.toNat < b.toNat := by simp [condLtu, BitVec.ult]
@[simp] theorem boolWord_toNat (c : Bool) : (boolWord c).toNat = if c = true then 1 else 0 := by cases c <;> rfl

/-- A shift amount is the register's value modulo 32 (R180). -/
@[simp] theorem shamtOfReg_eq : shamtOfReg a = a.toNat % 32 := by simp [shamtOfReg]
/-- A shift amount is the immediate modulo 32 (R167). -/
@[simp] theorem shamtOfImm_eq {n : Nat} (imm : BitVec n) : shamtOfImm imm = imm.toNat % 32 := by simp [shamtOfImm]

@[simp] theorem bytes_byte : Width.byte.bytes = 1 := rfl
@[simp] theorem bytes_half : Width.half.bytes = 2 := rfl
@[simp] theorem bytes_word : Width.word.bytes = 4 := rfl

end Sys2Proof.Machine
end

