-- ==== Sys2Proof/Laws/Ops.lean ====
section
/-! SUPPORT. One lemma per shared operation that says once everything it can do. -/

namespace Sys2Proof.Machine

variable {s t : State}

/-- In bounds is exactly `a + n <= MEM_SIZE` (R46). -/
theorem inBounds_iff (s : State) (a : Word) (w : Width) :
    s.inBounds a w = true ↔ a.toNat + w.bytes ≤ s.cfg.memSize := by simp [State.inBounds]

/-- A read in bounds answers the little-endian value. -/
theorem memRead_ok (kind : AccessKind) (a : Word) (w : Width) (h : a.toNat + w.bytes ≤ s.cfg.memSize) :
    s.memRead kind a w = .ok (s.mem.readLE a.toNat w.bytes) := by simp [State.memRead, State.inBounds, h]

/-- A read out of bounds answers its condition, whatever the contents. -/
theorem memRead_error (kind : AccessKind) (a : Word) (w : Width) (h : s.cfg.memSize < a.toNat + w.bytes) :
    s.memRead kind a w = .error (.memoryOutOfBounds kind a w.bytes s.pc) := by
  simp [State.memRead, State.inBounds, Nat.not_le.2 h]

theorem memWrite_ok (a : Word) (w : Width) (v : Word) (h : a.toNat + w.bytes ≤ s.cfg.memSize) :
    s.memWrite a w v = .ok (s.setMem (s.mem.writeLE a.toNat w.bytes v)) := by simp [State.memWrite, State.inBounds, h]

theorem memWrite_error (a : Word) (w : Width) (v : Word) (h : s.cfg.memSize < a.toNat + w.bytes) :
    s.memWrite a w v = .error (.memoryOutOfBounds .store a w.bytes s.pc) := by
  simp [State.memWrite, State.inBounds, Nat.not_le.2 h]

/-- Everything `finish` can do. -/
theorem finish_eq (rd : RegIdx) (v : Word) : s.finish rd v = .next (s.writeReg rd v).advance := rfl

/-- Everything `jump` can do. -/
theorem jump_eq (rd : RegIdx) (target : Word) :
    s.jump rd target = .next ((s.writeReg rd (s.pc + 4#32)).setPc target) := rfl

/-- Everything `branch` can do. -/
theorem branch_eq (taken : Bool) (target : Word) :
    s.branch taken target = .next (s.setPc (if taken then target else s.pc + 4#32)) := by
  cases taken <;> rfl

/-- Everything `load` can do. -/
theorem load_eq (rd : RegIdx) (a : Word) (w : Width) (ext : Word → Word) : s.load rd a w ext =
    if a.toNat + w.bytes ≤ s.cfg.memSize then
      .next (s.writeReg rd (ext (s.mem.readLE a.toNat w.bytes))).advance
    else .fault (.memoryOutOfBounds .load a w.bytes s.pc) := by
  unfold State.load
  split_ifs with h
  · rw [memRead_ok _ _ _ h]; rfl
  · rw [memRead_error _ _ _ (Nat.lt_of_not_le h)]; rfl

/-- Everything `store` can do. -/
theorem store_eq (a : Word) (w : Width) (v : Word) : s.store a w v =
    if a.toNat + w.bytes ≤ s.cfg.memSize then .next (s.setMem (s.mem.writeLE a.toNat w.bytes v)).advance
    else .fault (.memoryOutOfBounds .store a w.bytes s.pc) := by
  unfold State.store
  split_ifs with h
  · rw [memWrite_ok _ _ _ h]
  · rw [memWrite_error _ _ _ (Nat.lt_of_not_le h)]; rfl

/-- Everything the fetch can do (R121). -/
theorem fetch_eq (s : State) : s.fetch =
    if s.pc.toNat + 4 ≤ s.cfg.memSize then
      .ok (wordOfBytes (s.mem.readByte s.pc.toNat) (s.mem.readByte (s.pc.toNat + 1)) (s.mem.readByte (s.pc.toNat + 2))
        (s.mem.readByte (s.pc.toNat + 3)))
    else .error (.memoryOutOfBounds .fetch s.pc 4 s.pc) := by
  unfold State.fetch
  split_ifs with h
  · rw [memRead_ok _ _ _ h, Width.bytes, readLE_four]
  · rw [memRead_error _ _ _ (Nat.lt_of_not_le h)]; rfl

/-- A word written at an address is read back there (R61), memory in canonical form. -/
theorem readLE_writeLE_word (m : Memory) (a : Nat) (v : Word) (h : m.wf) : (m.writeLE a 4 v).readLE a 4 = v := by
  have b (i : Nat) (hi : i < 4) : (m.writeLE a 4 v).readByte (a + i) = v.extractLsb' (8 * i) 8 := by
    rw [readByte_writeLE_inside 4 m a i v h hi]
    rfl
  have b0 := b 0 (by decide)
  rw [Nat.add_zero] at b0
  rw [readLE_four, b0, b 1 (by decide), b 2 (by decide), b 3 (by decide)]
  exact wordOfBytes_bytes v

/-- The loader, where its first word fits: that word is placed and the load goes on (R274). -/
theorem loadWords_cons (a : Nat) (w : Word) (ws : List Word) (h : a + 4 ≤ s.cfg.memSize) (hm : s.cfg.memSize ≤ 2 ^ 32) :
    s.loadWords a (w :: ws) = (s.setMem (s.mem.writeLE a 4 w)).loadWords (a + 4) ws := by
  have ha : (BitVec.ofNat 32 a).toNat = a := by rw [BitVec.toNat_ofNat]; omega
  rw [State.loadWords, State.loadWord, if_pos (by omega), memWrite_ok _ _ _ (by rw [ha]; exact h), ha]
  rfl

/-- The loader, where its first word does not fit (log entries 26, 27). -/
theorem loadWords_cons_error (a : Nat) (w : Word) (ws : List Word) (h : s.cfg.memSize < a + 4) :
    s.loadWords a (w :: ws) = .error (.memoryOutOfBounds .store (BitVec.ofNat 32 a) 4 s.pc) := by
  rw [State.loadWords]
  split_ifs with h32
  · have ha : (BitVec.ofNat 32 a).toNat = a := by rw [BitVec.toNat_ofNat]; omega
    rw [State.loadWord, memWrite_error _ _ _ (by rw [ha]; exact h)]
    rfl
  · rfl

end Sys2Proof.Machine
end

