-- ==== Sys2Proof/Laws/Table.lean ====
section
/-! SUPPORT. What a row of the opcode table accepts, in terms of fields: a mask keeps whole fields, so "`(raw & mask) =
(match & mask)`" (30_encoding.md R108) compares them. -/

namespace Sys2Proof

/-- Masking a layout masks each field. -/
theorem wordR_and (f7 g7 : BitVec 7) (a2 b2 a1 b1 : RegIdx) (f3 g3 : BitVec 3) (d e : RegIdx) (p q : BitVec 7) :
    wordR f7 a2 a1 f3 d p &&& wordR g7 b2 b1 g3 e q =
      wordR (f7 &&& g7) (a2 &&& b2) (a1 &&& b1) (f3 &&& g3) (d &&& e) (p &&& q) := by
  unfold wordR
  exact BitVec.and_append.trans (congrArg (· ++ (p &&& q)) (BitVec.and_append.trans (congrArg (· ++ (d &&& e))
    (BitVec.and_append.trans (congrArg (· ++ (f3 &&& g3)) (BitVec.and_append.trans (congrArg (· ++ (a1 &&& b1))
      BitVec.and_append)))))))

/-- A word masked to whole fields. -/
theorem and_fields (raw : Word) (g7 : BitVec 7) (g3 : BitVec 3) (q : BitVec 7) :
    raw &&& wordR g7 0#5 0#5 g3 0#5 q =
      wordR (funct7Of raw &&& g7) 0#5 0#5 (funct3Of raw &&& g3) 0#5 (opcodeOf raw &&& q) := by
  conv_lhs => rw [← wordR_own raw]
  rw [wordR_and]
  simp

theorem mask_opcode : 0x0000007F#32 = wordR 0#7 0#5 0#5 0#3 0#5 0x7F#7 := by decide
theorem mask_funct3 : 0x0000707F#32 = wordR 0#7 0#5 0#5 7#3 0#5 0x7F#7 := by decide
theorem mask_funct7 : 0xFE00707F#32 = wordR 0x7F#7 0#5 0#5 7#3 0#5 0x7F#7 := by decide

theorem and_ones7 (v : BitVec 7) : v &&& 0x7F#7 = v := BitVec.and_allOnes
theorem and_ones3 (v : BitVec 3) : v &&& 7#3 = v := BitVec.and_allOnes

/-- A row that fixes the opcode alone. -/
theorem accepts_opcode (o : Operation) (m raw : Word) (c : Funct7Constraint) :
    (Row.mk o m 0x0000007F#32 c).accepts raw = true ↔ opcodeOf raw = opcodeOf m ∧ c.holds raw = true := by
  unfold Row.accepts
  rw [Bool.and_eq_true, beq_iff_eq, mask_opcode, and_fields, and_fields]
  simp only [and_ones7, BitVec.and_zero]
  refine and_congr_left fun _ => ⟨fun h => ?_, fun h => by rw [h]⟩
  simpa using congrArg opcodeOf h

/-- A row that fixes the opcode and `funct3`. -/
theorem accepts_funct3 (o : Operation) (m raw : Word) (c : Funct7Constraint) :
    (Row.mk o m 0x0000707F#32 c).accepts raw = true ↔
      opcodeOf raw = opcodeOf m ∧ funct3Of raw = funct3Of m ∧ c.holds raw = true := by
  unfold Row.accepts
  rw [Bool.and_eq_true, beq_iff_eq, mask_funct3, and_fields, and_fields, ← and_assoc]
  simp only [and_ones7, and_ones3, BitVec.and_zero]
  refine and_congr_left fun _ => ⟨fun h => ⟨?_, ?_⟩, fun h => by rw [h.1, h.2]⟩
  · simpa using congrArg opcodeOf h
  · simpa using congrArg funct3Of h

/-- A row that fixes the opcode, `funct3` and `funct7`. -/
theorem accepts_funct7 (o : Operation) (m raw : Word) (c : Funct7Constraint) :
    (Row.mk o m 0xFE00707F#32 c).accepts raw = true ↔
      opcodeOf raw = opcodeOf m ∧ funct3Of raw = funct3Of m ∧ funct7Of raw = funct7Of m ∧ c.holds raw = true := by
  unfold Row.accepts
  rw [Bool.and_eq_true, beq_iff_eq, mask_funct7, and_fields, and_fields, ← and_assoc, ← and_assoc]
  simp only [and_ones7, and_ones3]
  refine and_congr_left fun _ => ⟨fun h => ⟨⟨?_, ?_⟩, ?_⟩, fun h => by rw [h.1.1, h.1.2, h.2]⟩
  · simpa using congrArg opcodeOf h
  · simpa using congrArg funct3Of h
  · simpa using congrArg funct7Of h

end Sys2Proof
end

