-- ==== Sys2Proof/Laws/PerInstr.lean ====
section
/-! SUPPORT. The family `EncodesToItsRow`, one lemma per constructor of Instr: the word of a well-formed instruction is
accepted by the row of the opcode table that carries its mnemonic (30_encoding.md R108). -/

/-- The encoder writes a word of the instruction's own row. -/
def Sys2Proof.Laws.EncodesToItsRow.Statement (i : Sys2Proof.Instr) : Prop :=
  i.wf = true → ∃ row ∈ Sys2Proof.opcodeTable, row.operation = i.operation ∧ row.accepts (Sys2Proof.encode i) = true

namespace Sys2Proof.Laws

/-- Membership in the table, by group of rows. -/
theorem row_mem {r : Row} (h : r ∈ controlRows ∨ r ∈ memoryRows ∨ r ∈ arithImmRows ∨ r ∈ arithRows) :
    r ∈ opcodeTable := by
  simp only [opcodeTable, List.mem_append]
  tauto

section shapes
variable {o : Operation} {m : Word} {f7 : BitVec 7} {rs2 rs1 rd : RegIdx} {f3 : BitVec 3} {op : BitVec 7}

theorem accepts_wordU {imm : BitVec 20} (h : opcodeOf m = op) :
    (Row.mk o m 0x0000007F#32 .unconstrained).accepts (wordU imm rd op) = true :=
  (accepts_opcode _ _ _ _).2 ⟨by rw [opcodeOf_wordU, h], rfl⟩
theorem accepts_wordJ {imm : BitVec 21} (h : opcodeOf m = op) :
    (Row.mk o m 0x0000007F#32 .unconstrained).accepts (wordJ imm rd op) = true :=
  (accepts_opcode _ _ _ _).2 ⟨by rw [opcodeOf_wordJ, h], rfl⟩
theorem accepts_wordI_any {imm : BitVec 12} (h : opcodeOf m = op) :
    (Row.mk o m 0x0000007F#32 .unconstrained).accepts (wordI imm rs1 f3 rd op) = true :=
  (accepts_opcode _ _ _ _).2 ⟨by rw [opcodeOf_wordI, h], rfl⟩
theorem accepts_wordI {imm : BitVec 12} (h : opcodeOf m = op ∧ funct3Of m = f3) :
    (Row.mk o m 0x0000707F#32 .unconstrained).accepts (wordI imm rs1 f3 rd op) = true :=
  (accepts_funct3 _ _ _ _).2 ⟨by rw [opcodeOf_wordI, h.1], by rw [funct3Of_wordI, h.2], rfl⟩
theorem accepts_wordS {imm : BitVec 12} (h : opcodeOf m = op ∧ funct3Of m = f3) :
    (Row.mk o m 0x0000707F#32 .unconstrained).accepts (wordS imm rs2 rs1 f3 op) = true :=
  (accepts_funct3 _ _ _ _).2 ⟨by rw [opcodeOf_wordS, h.1], by rw [funct3Of_wordS, h.2], rfl⟩
theorem accepts_wordB {imm : BitVec 13} (h : opcodeOf m = op ∧ funct3Of m = f3) :
    (Row.mk o m 0x0000707F#32 .unconstrained).accepts (wordB imm rs2 rs1 f3 op) = true :=
  (accepts_funct3 _ _ _ _).2 ⟨by rw [opcodeOf_wordB, h.1], by rw [funct3Of_wordB, h.2], rfl⟩
theorem accepts_wordR (h : opcodeOf m = op ∧ funct3Of m = f3) :
    (Row.mk o m 0x0000707F#32 .unconstrained).accepts (wordR f7 rs2 rs1 f3 rd op) = true :=
  (accepts_funct3 _ _ _ _).2 ⟨by rw [opcodeOf_wordR, h.1], by rw [funct3Of_wordR, h.2], rfl⟩
theorem accepts_wordR_nonzero (hf : f7 ≠ 0#7) (h : opcodeOf m = op ∧ funct3Of m = f3) :
    (Row.mk o m 0x0000707F#32 .isNonzero).accepts (wordR f7 rs2 rs1 f3 rd op) = true :=
  (accepts_funct3 _ _ _ _).2
    ⟨by rw [opcodeOf_wordR, h.1], by rw [funct3Of_wordR, h.2], by simpa [Funct7Constraint.holds] using hf⟩
theorem accepts_wordR_zero (h : opcodeOf m = op ∧ funct3Of m = f3 ∧ funct7Of m = 0#7) :
    (Row.mk o m 0xFE00707F#32 .isZero).accepts (wordR 0#7 rs2 rs1 f3 rd op) = true :=
  (accepts_funct7 _ _ _ _).2 ⟨by rw [opcodeOf_wordR, h.1], by rw [funct3Of_wordR, h.2.1],
    by rw [funct7Of_wordR, h.2.2], by simp [Funct7Constraint.holds]⟩
end shapes

theorem EncodesToItsRow.lui (rd : RegIdx) (imm20 : BitVec 20) :
    EncodesToItsRow.Statement (.lui rd imm20) := fun _ =>
  ⟨⟨.LUI, 0x00000037#32, 0x0000007F#32, .unconstrained⟩, row_mem (.inl (by decide)), rfl,
    accepts_wordU (by decide)⟩

theorem EncodesToItsRow.auipc (rd : RegIdx) (imm20 : BitVec 20) :
    EncodesToItsRow.Statement (.auipc rd imm20) := fun _ =>
  ⟨⟨.AUIPC, 0x00000017#32, 0x0000007F#32, .unconstrained⟩, row_mem (.inl (by decide)), rfl,
    accepts_wordU (by decide)⟩

theorem EncodesToItsRow.jal (rd : RegIdx) (imm : BitVec 21) :
    EncodesToItsRow.Statement (.jal rd imm) := fun _ =>
  ⟨⟨.JAL, 0x0000006F#32, 0x0000007F#32, .unconstrained⟩, row_mem (.inl (by decide)), rfl,
    accepts_wordJ (by decide)⟩

theorem EncodesToItsRow.jalr (funct3 : BitVec 3) (rd rs1 : RegIdx) (imm : BitVec 12) :
    EncodesToItsRow.Statement (.jalr funct3 rd rs1 imm) := fun _ =>
  ⟨⟨.JALR, 0x00000067#32, 0x0000007F#32, .unconstrained⟩, row_mem (.inl (by decide)), rfl,
    accepts_wordI_any (by decide)⟩

theorem EncodesToItsRow.beq (rs1 rs2 : RegIdx) (imm : BitVec 13) :
    EncodesToItsRow.Statement (.beq rs1 rs2 imm) := fun _ =>
  ⟨⟨.BEQ, 0x00000063#32, 0x0000707F#32, .unconstrained⟩, row_mem (.inl (by decide)), rfl,
    accepts_wordB (by decide)⟩

theorem EncodesToItsRow.bne (rs1 rs2 : RegIdx) (imm : BitVec 13) :
    EncodesToItsRow.Statement (.bne rs1 rs2 imm) := fun _ =>
  ⟨⟨.BNE, 0x00001063#32, 0x0000707F#32, .unconstrained⟩, row_mem (.inl (by decide)), rfl,
    accepts_wordB (by decide)⟩

theorem EncodesToItsRow.blt (rs1 rs2 : RegIdx) (imm : BitVec 13) :
    EncodesToItsRow.Statement (.blt rs1 rs2 imm) := fun _ =>
  ⟨⟨.BLT, 0x00004063#32, 0x0000707F#32, .unconstrained⟩, row_mem (.inl (by decide)), rfl,
    accepts_wordB (by decide)⟩

theorem EncodesToItsRow.bge (rs1 rs2 : RegIdx) (imm : BitVec 13) :
    EncodesToItsRow.Statement (.bge rs1 rs2 imm) := fun _ =>
  ⟨⟨.BGE, 0x00005063#32, 0x0000707F#32, .unconstrained⟩, row_mem (.inl (by decide)), rfl,
    accepts_wordB (by decide)⟩

theorem EncodesToItsRow.bltu (rs1 rs2 : RegIdx) (imm : BitVec 13) :
    EncodesToItsRow.Statement (.bltu rs1 rs2 imm) := fun _ =>
  ⟨⟨.BLTU, 0x00006063#32, 0x0000707F#32, .unconstrained⟩, row_mem (.inl (by decide)), rfl,
    accepts_wordB (by decide)⟩

theorem EncodesToItsRow.bgeu (rs1 rs2 : RegIdx) (imm : BitVec 13) :
    EncodesToItsRow.Statement (.bgeu rs1 rs2 imm) := fun _ =>
  ⟨⟨.BGEU, 0x00007063#32, 0x0000707F#32, .unconstrained⟩, row_mem (.inl (by decide)), rfl,
    accepts_wordB (by decide)⟩

theorem EncodesToItsRow.lb (rd rs1 : RegIdx) (imm : BitVec 12) :
    EncodesToItsRow.Statement (.lb rd rs1 imm) := fun _ =>
  ⟨⟨.LB, 0x00000003#32, 0x0000707F#32, .unconstrained⟩, row_mem (.inr (.inl (by decide))), rfl,
    accepts_wordI (by decide)⟩

theorem EncodesToItsRow.lh (rd rs1 : RegIdx) (imm : BitVec 12) :
    EncodesToItsRow.Statement (.lh rd rs1 imm) := fun _ =>
  ⟨⟨.LH, 0x00001003#32, 0x0000707F#32, .unconstrained⟩, row_mem (.inr (.inl (by decide))), rfl,
    accepts_wordI (by decide)⟩

theorem EncodesToItsRow.lw (rd rs1 : RegIdx) (imm : BitVec 12) :
    EncodesToItsRow.Statement (.lw rd rs1 imm) := fun _ =>
  ⟨⟨.LW, 0x00002003#32, 0x0000707F#32, .unconstrained⟩, row_mem (.inr (.inl (by decide))), rfl,
    accepts_wordI (by decide)⟩

theorem EncodesToItsRow.lbu (rd rs1 : RegIdx) (imm : BitVec 12) :
    EncodesToItsRow.Statement (.lbu rd rs1 imm) := fun _ =>
  ⟨⟨.LBU, 0x00004003#32, 0x0000707F#32, .unconstrained⟩, row_mem (.inr (.inl (by decide))), rfl,
    accepts_wordI (by decide)⟩

theorem EncodesToItsRow.lhu (rd rs1 : RegIdx) (imm : BitVec 12) :
    EncodesToItsRow.Statement (.lhu rd rs1 imm) := fun _ =>
  ⟨⟨.LHU, 0x00005003#32, 0x0000707F#32, .unconstrained⟩, row_mem (.inr (.inl (by decide))), rfl,
    accepts_wordI (by decide)⟩

theorem EncodesToItsRow.sb (rs1 rs2 : RegIdx) (imm : BitVec 12) :
    EncodesToItsRow.Statement (.sb rs1 rs2 imm) := fun _ =>
  ⟨⟨.SB, 0x00000023#32, 0x0000707F#32, .unconstrained⟩, row_mem (.inr (.inl (by decide))), rfl,
    accepts_wordS (by decide)⟩

theorem EncodesToItsRow.sh (rs1 rs2 : RegIdx) (imm : BitVec 12) :
    EncodesToItsRow.Statement (.sh rs1 rs2 imm) := fun _ =>
  ⟨⟨.SH, 0x00001023#32, 0x0000707F#32, .unconstrained⟩, row_mem (.inr (.inl (by decide))), rfl,
    accepts_wordS (by decide)⟩

theorem EncodesToItsRow.sw (rs1 rs2 : RegIdx) (imm : BitVec 12) :
    EncodesToItsRow.Statement (.sw rs1 rs2 imm) := fun _ =>
  ⟨⟨.SW, 0x00002023#32, 0x0000707F#32, .unconstrained⟩, row_mem (.inr (.inl (by decide))), rfl,
    accepts_wordS (by decide)⟩

theorem EncodesToItsRow.addi (rd rs1 : RegIdx) (imm : BitVec 12) :
    EncodesToItsRow.Statement (.addi rd rs1 imm) := fun _ =>
  ⟨⟨.ADDI, 0x00000013#32, 0x0000707F#32, .unconstrained⟩, row_mem (.inr (.inr (.inl (by decide)))), rfl,
    accepts_wordI (by decide)⟩

theorem EncodesToItsRow.slti (rd rs1 : RegIdx) (imm : BitVec 12) :
    EncodesToItsRow.Statement (.slti rd rs1 imm) := fun _ =>
  ⟨⟨.SLTI, 0x00002013#32, 0x0000707F#32, .unconstrained⟩, row_mem (.inr (.inr (.inl (by decide)))), rfl,
    accepts_wordI (by decide)⟩

theorem EncodesToItsRow.sltiu (rd rs1 : RegIdx) (imm : BitVec 12) :
    EncodesToItsRow.Statement (.sltiu rd rs1 imm) := fun _ =>
  ⟨⟨.SLTIU, 0x00003013#32, 0x0000707F#32, .unconstrained⟩, row_mem (.inr (.inr (.inl (by decide)))), rfl,
    accepts_wordI (by decide)⟩

theorem EncodesToItsRow.xori (rd rs1 : RegIdx) (imm : BitVec 12) :
    EncodesToItsRow.Statement (.xori rd rs1 imm) := fun _ =>
  ⟨⟨.XORI, 0x00004013#32, 0x0000707F#32, .unconstrained⟩, row_mem (.inr (.inr (.inl (by decide)))), rfl,
    accepts_wordI (by decide)⟩

theorem EncodesToItsRow.ori (rd rs1 : RegIdx) (imm : BitVec 12) :
    EncodesToItsRow.Statement (.ori rd rs1 imm) := fun _ =>
  ⟨⟨.ORI, 0x00006013#32, 0x0000707F#32, .unconstrained⟩, row_mem (.inr (.inr (.inl (by decide)))), rfl,
    accepts_wordI (by decide)⟩

theorem EncodesToItsRow.andi (rd rs1 : RegIdx) (imm : BitVec 12) :
    EncodesToItsRow.Statement (.andi rd rs1 imm) := fun _ =>
  ⟨⟨.ANDI, 0x00007013#32, 0x0000707F#32, .unconstrained⟩, row_mem (.inr (.inr (.inl (by decide)))), rfl,
    accepts_wordI (by decide)⟩

theorem EncodesToItsRow.slli (rd rs1 : RegIdx) (imm : BitVec 12) :
    EncodesToItsRow.Statement (.slli rd rs1 imm) := fun _ =>
  ⟨⟨.SLLI, 0x00001013#32, 0x0000707F#32, .unconstrained⟩, row_mem (.inr (.inr (.inl (by decide)))), rfl,
    accepts_wordI (by decide)⟩

theorem EncodesToItsRow.srli (rd rs1 : RegIdx) (shamt : BitVec 5) :
    EncodesToItsRow.Statement (.srli rd rs1 shamt) := fun _ =>
  ⟨⟨.SRLI, 0x00005013#32, 0xFE00707F#32, .isZero⟩, row_mem (.inr (.inr (.inl (by decide)))), rfl,
    accepts_wordR_zero (by decide)⟩

theorem EncodesToItsRow.srai (rd rs1 : RegIdx) (shamt : BitVec 5) :
    EncodesToItsRow.Statement (.srai rd rs1 shamt) := fun _ =>
  ⟨⟨.SRAI, 0x40005013#32, 0x0000707F#32, .isNonzero⟩, row_mem (.inr (.inr (.inl (by decide)))), rfl,
    accepts_wordR_nonzero (by decide) (by decide)⟩

theorem EncodesToItsRow.add (rd rs1 rs2 : RegIdx) :
    EncodesToItsRow.Statement (.add rd rs1 rs2) := fun _ =>
  ⟨⟨.ADD, 0x00000033#32, 0xFE00707F#32, .isZero⟩, row_mem (.inr (.inr (.inr (by decide)))), rfl,
    accepts_wordR_zero (by decide)⟩

theorem EncodesToItsRow.sub (funct7 : BitVec 7) (rd rs1 rs2 : RegIdx) :
    EncodesToItsRow.Statement (.sub funct7 rd rs1 rs2) := fun h =>
  ⟨⟨.SUB, 0x40000033#32, 0x0000707F#32, .isNonzero⟩, row_mem (.inr (.inr (.inr (by decide)))), rfl,
    accepts_wordR_nonzero (by simpa [Instr.wf] using h) (by decide)⟩

theorem EncodesToItsRow.sll (funct7 : BitVec 7) (rd rs1 rs2 : RegIdx) :
    EncodesToItsRow.Statement (.sll funct7 rd rs1 rs2) := fun _ =>
  ⟨⟨.SLL, 0x00001033#32, 0x0000707F#32, .unconstrained⟩, row_mem (.inr (.inr (.inr (by decide)))), rfl,
    accepts_wordR (by decide)⟩

theorem EncodesToItsRow.slt (funct7 : BitVec 7) (rd rs1 rs2 : RegIdx) :
    EncodesToItsRow.Statement (.slt funct7 rd rs1 rs2) := fun _ =>
  ⟨⟨.SLT, 0x00002033#32, 0x0000707F#32, .unconstrained⟩, row_mem (.inr (.inr (.inr (by decide)))), rfl,
    accepts_wordR (by decide)⟩

theorem EncodesToItsRow.sltu (funct7 : BitVec 7) (rd rs1 rs2 : RegIdx) :
    EncodesToItsRow.Statement (.sltu funct7 rd rs1 rs2) := fun _ =>
  ⟨⟨.SLTU, 0x00003033#32, 0x0000707F#32, .unconstrained⟩, row_mem (.inr (.inr (.inr (by decide)))), rfl,
    accepts_wordR (by decide)⟩

theorem EncodesToItsRow.xor (funct7 : BitVec 7) (rd rs1 rs2 : RegIdx) :
    EncodesToItsRow.Statement (.xor funct7 rd rs1 rs2) := fun _ =>
  ⟨⟨.XOR, 0x00004033#32, 0x0000707F#32, .unconstrained⟩, row_mem (.inr (.inr (.inr (by decide)))), rfl,
    accepts_wordR (by decide)⟩

theorem EncodesToItsRow.srl (rd rs1 rs2 : RegIdx) :
    EncodesToItsRow.Statement (.srl rd rs1 rs2) := fun _ =>
  ⟨⟨.SRL, 0x00005033#32, 0xFE00707F#32, .isZero⟩, row_mem (.inr (.inr (.inr (by decide)))), rfl,
    accepts_wordR_zero (by decide)⟩

theorem EncodesToItsRow.sra (funct7 : BitVec 7) (rd rs1 rs2 : RegIdx) :
    EncodesToItsRow.Statement (.sra funct7 rd rs1 rs2) := fun h =>
  ⟨⟨.SRA, 0x40005033#32, 0x0000707F#32, .isNonzero⟩, row_mem (.inr (.inr (.inr (by decide)))), rfl,
    accepts_wordR_nonzero (by simpa [Instr.wf] using h) (by decide)⟩

theorem EncodesToItsRow.or (funct7 : BitVec 7) (rd rs1 rs2 : RegIdx) :
    EncodesToItsRow.Statement (.or funct7 rd rs1 rs2) := fun _ =>
  ⟨⟨.OR, 0x00006033#32, 0x0000707F#32, .unconstrained⟩, row_mem (.inr (.inr (.inr (by decide)))), rfl,
    accepts_wordR (by decide)⟩

theorem EncodesToItsRow.and (funct7 : BitVec 7) (rd rs1 rs2 : RegIdx) :
    EncodesToItsRow.Statement (.and funct7 rd rs1 rs2) := fun _ =>
  ⟨⟨.AND, 0x00007033#32, 0x0000707F#32, .unconstrained⟩, row_mem (.inr (.inr (.inr (by decide)))), rfl,
    accepts_wordR (by decide)⟩

theorem EncodesToItsRow.fence (rd rs1 : RegIdx) (imm : BitVec 12) :
    EncodesToItsRow.Statement (.fence rd rs1 imm) := fun _ =>
  ⟨⟨.FENCE, 0x0000000F#32, 0x0000707F#32, .unconstrained⟩, row_mem (.inr (.inl (by decide))), rfl,
    accepts_wordI (by decide)⟩

theorem EncodesToItsRow.fencei (rd rs1 : RegIdx) (imm : BitVec 12) :
    EncodesToItsRow.Statement (.fencei rd rs1 imm) := fun _ =>
  ⟨⟨.FENCEI, 0x0000100F#32, 0x0000707F#32, .unconstrained⟩, row_mem (.inr (.inl (by decide))), rfl,
    accepts_wordI (by decide)⟩

end Sys2Proof.Laws
end

