-- ==== Sys2Proof/Laws/Step.lean ====
section
/-! SUPPORT. What an instruction and a cycle can do, said once: `exec` is always one of six shared operations, and a
completed cycle is a fetch, a decode and an `exec`. Invariants are derived from these two. -/

namespace Sys2Proof.Machine

variable {s t : State}

/-- Every instruction ends its cycle in one of the six shared shapes. -/
theorem exec_shape (i : Instr) (s : State) :
    (∃ rd v, exec i s = s.finish rd v) ∨ (∃ rd target, exec i s = s.jump rd target) ∨
    (∃ taken target, exec i s = s.branch taken target) ∨ (∃ rd a w ext, exec i s = s.load rd a w ext) ∨
    (∃ a w v, exec i s = s.store a w v) ∨ (∃ raw, exec i s = s.unimplemented raw) := by
  cases i with
  | lui | auipc | addi | slti | sltiu | xori | ori | andi | slli | srli | srai | add | sub | sll | slt | sltu | xor
  | srl | sra | or | and => exact .inl ⟨_, _, rfl⟩
  | jal | jalr => exact .inr (.inl ⟨_, _, rfl⟩)
  | beq | bne | blt | bge | bltu | bgeu => exact .inr (.inr (.inl ⟨_, _, rfl⟩))
  | lb | lh | lw | lbu | lhu => exact .inr (.inr (.inr (.inl ⟨_, _, _, _, rfl⟩)))
  | sb | sh | sw => exact .inr (.inr (.inr (.inr (.inl ⟨_, _, _, rfl⟩))))
  | fence | fencei => exact .inr (.inr (.inr (.inr (.inr ⟨_, rfl⟩))))

/-- A next state of `exec` is one register write and a new pc, or one store and the default advance. -/
theorem exec_next_cases {i : Instr} (h : exec i s = .next t) :
    (∃ rd v target, t = (s.writeReg rd v).setPc target) ∨
    (∃ (a : Word) (w : Width) (v : Word), a.toNat + w.bytes ≤ s.cfg.memSize ∧ t = (s.setMem (s.mem.writeLE a.toNat w.bytes v)).advance) := by
  rcases exec_shape i s with ⟨rd, v, e⟩ | ⟨rd, target, e⟩ | ⟨taken, target, e⟩ | ⟨rd, a, w, ext, e⟩ | ⟨a, w, v, e⟩ |
    ⟨raw, e⟩ <;> rw [e] at h
  · rw [finish_eq] at h
    cases h
    exact .inl ⟨rd, v, _, rfl⟩
  · rw [jump_eq] at h
    cases h
    exact .inl ⟨rd, _, target, rfl⟩
  · rw [branch_eq] at h
    cases h
    exact .inl ⟨0#5, 0#32, _, by rw [writeReg_zero]⟩
  · rw [load_eq] at h
    split_ifs at h
    cases h
    exact .inl ⟨rd, _, _, rfl⟩
  · rw [store_eq] at h
    split_ifs at h with hb
    cases h
    exact .inr ⟨a, w, v, hb, rfl⟩
  · cases h

/-- A completed cycle fetched, decoded and executed (R120). -/
theorem step_next_cases (h : step s = .next t) :
    ∃ raw i, s.fetch = .ok raw ∧ decode raw = .ok i ∧ exec i s = .next t := by
  unfold step at h
  cases hf : s.fetch with
  | error f => rw [hf] at h; cases h
  | ok raw =>
    rw [hf] at h
    cases hd : decode raw with
    | error e => simp only [hd] at h; cases h
    | ok i => exact ⟨raw, i, rfl, hd, by simpa only [hd] using h⟩

/-- A run whose first cycle completes. -/
theorem core_run_next {M : Host.Core} {s t : M.State} (h : M.step s = .next t) (k : Nat) :
    M.run (k + 1) s = M.run k t := by simp only [Host.Core.run, h]

/-- A run whose first cycle is fatal is over (R240). -/
theorem core_run_fault {M : Host.Core} {s : M.State} {f : M.Fault} (h : M.step s = .fault f) (k : Nat) :
    M.run (k + 1) s = .fault f := by simp only [Host.Core.run, h]

/-- A run goes on from the state it has reached. -/
theorem core_run_add {M : Host.Core} {s t : M.State} {k : Nat} (h : M.run k s = .next t) (j : Nat) :
    M.run (k + j) s = M.run j t := by
  induction k generalizing s with
  | zero => cases h; rw [Nat.zero_add]
  | succ k ih =>
    rw [Nat.succ_add]
    cases e : M.step s with
    | next u => rw [core_run_next e] at h ⊢; exact ih h
    | fault f => rw [core_run_fault e] at h; cases h
    | refused r => simp [Host.Core.run, e] at h

end Sys2Proof.Machine
end

