-- ==== Sys2Proof/Tests/Slice0.lean ====
section
/-! SUPPORT. The model's own tests. Expected results are the spec's: the words are written out from the layouts of
30_encoding.md section 2, the vectors are 95_test_vectors.md's. Then one witness per statement of
`Sys2Proof.Certificates.Slice0.Obligations` that has hypotheses: a concrete state and operands that meet them. -/

namespace Sys2Proof.Tests

open Sys2Proof.Machine Sys2Proof.Claims

set_option maxRecDepth 20000

/-- A machine under `cfg` with some registers and memory bytes preset, and a pc. -/
def machineOf (cfg : Config) (regs : List (RegIdx × Word)) (bytes : List (Nat × Byte)) (pc : Word) : State :=
  let s := regs.foldl (fun s p => s.presetReg p.1 p.2) (State.created cfg)
  (s.setMem (bytes.foldl (fun m p => m.writeByte p.1 p.2) s.mem)).setEntry pc

/-- The same under the default configuration. -/
def machine (regs : List (RegIdx × Word)) (bytes : List (Nat × Byte)) (pc : Word) : State :=
  machineOf Config.default regs bytes pc

/-- Memory of 95_test_vectors.md section 2.6. -/
def loaded : List (Nat × Byte) := [(0x200, 0x7F#8), (0x201, 0x80#8), (0x202, 0xFF#8)]
/-- Memory for the stores of section 2.7. -/
def stored : List (Nat × Byte) := [(0x200, 0xAA#8), (0x201, 0xAA#8), (0x205, 0xAA#8)]

/-- One cycle with the word placed at the pc. -/
def cycle (raw : Nat) (s : State) : Result := step (s.withFetchWord 32 raw)

/-- The outcome is a next state with the property. -/
def okWith (o : Result) (p : State → Bool) : Bool :=
  match o with
  | .next t => p t
  | _ => false

/-- The fatal condition of an outcome. -/
def faultOf (o : Result) : Option Fault :=
  match o with
  | .fault f => some f
  | _ => none

theorem exists_next {o : Result} {p : State → Bool} (h : okWith o p = true) : ∃ t, o = .next t ∧ p t = true := by
  cases o with
  | next t => exact ⟨t, rfl, h⟩
  | fault f => cases h
  | refused r => cases h

theorem eq_fault {o : Result} {f : Fault} (h : faultOf o = some f) : o = .fault f := by
  cases o with
  | next t => cases h
  | fault g => exact congrArg Host.Outcome.fault (Option.some.inj h)
  | refused r => cases h

/-! ### Decoding: words written out bit by bit from 30_encoding.md R72 to R78 and R95 to R103 -/

theorem test_decode_lui :
    decode (0b00010010001101000101#20 ++ 0b00101#5 ++ 0b0110111#7) =
      .ok (.lui 5#5 0x12345#20) := by decide
theorem test_decode_auipc :
    decode (0b10000000000000000001#20 ++ 0b11111#5 ++ 0b0010111#7) =
      .ok (.auipc 31#5 0x80001#20) := by decide
theorem test_decode_jal :
    decode (0b1#1 ++ 0b0110100111#10 ++ 0b1#1 ++ 0b10100010#8 ++ 0b00001#5 ++ 0b1101111#7) =
      .ok (.jal 1#5 0x1A2B4E#21) := by decide
theorem test_decode_jal_bit_eleven :
    decode (0b0#1 ++ 0b0000000000#10 ++ 0b1#1 ++ 0b00000000#8 ++ 0b00001#5 ++ 0b1101111#7) =
      .ok (.jal 1#5 0x800#21) := by decide
theorem test_decode_jalr :
    decode (0b111111111101#12 ++ 0b00101#5 ++ 0b000#3 ++ 0b00001#5 ++ 0b1100111#7) =
      .ok (.jalr 0#3 1#5 5#5 0xFFD#12) := by decide
theorem test_decode_jalr_any_funct3 :
    decode (0b000000000000#12 ++ 0b00001#5 ++ 0b010#3 ++ 0b00000#5 ++ 0b1100111#7) =
      .ok (.jalr 2#3 0#5 1#5 0#12) := by decide
theorem test_decode_beq :
    decode (0b1#1 ++ 0b111111#6 ++ 0b00010#5 ++ 0b10001#5 ++ 0b000#3 ++ 0b1110#4 ++ 0b1#1 ++ 0b1100011#7) =
      .ok (.beq 17#5 2#5 0x1ffc#13) := by decide
theorem test_decode_bne :
    decode (0b0#1 ++ 0b000000#6 ++ 0b00010#5 ++ 0b10001#5 ++ 0b001#3 ++ 0b0000#4 ++ 0b1#1 ++ 0b1100011#7) =
      .ok (.bne 17#5 2#5 0x800#13) := by decide
theorem test_decode_blt :
    decode (0b0#1 ++ 0b000000#6 ++ 0b00010#5 ++ 0b10001#5 ++ 0b100#3 ++ 0b1000#4 ++ 0b0#1 ++ 0b1100011#7) =
      .ok (.blt 17#5 2#5 0x10#13) := by decide
theorem test_decode_bge :
    decode (0b0#1 ++ 0b111111#6 ++ 0b00010#5 ++ 0b10001#5 ++ 0b101#3 ++ 0b0001#4 ++ 0b0#1 ++ 0b1100011#7) =
      .ok (.bge 17#5 2#5 0x7e2#13) := by decide
theorem test_decode_bltu :
    decode (0b0#1 ++ 0b111111#6 ++ 0b00010#5 ++ 0b10001#5 ++ 0b110#3 ++ 0b1111#4 ++ 0b1#1 ++ 0b1100011#7) =
      .ok (.bltu 17#5 2#5 0xffe#13) := by decide
theorem test_decode_bgeu :
    decode (0b1#1 ++ 0b000000#6 ++ 0b00010#5 ++ 0b10001#5 ++ 0b111#3 ++ 0b0000#4 ++ 0b0#1 ++ 0b1100011#7) =
      .ok (.bgeu 17#5 2#5 0x1000#13) := by decide
theorem test_decode_lb :
    decode (0b100000000000#12 ++ 0b01001#5 ++ 0b000#3 ++ 0b11110#5 ++ 0b0000011#7) =
      .ok (.lb 30#5 9#5 0x800#12) := by decide
theorem test_decode_lh :
    decode (0b100000000001#12 ++ 0b01001#5 ++ 0b001#3 ++ 0b11110#5 ++ 0b0000011#7) =
      .ok (.lh 30#5 9#5 0x801#12) := by decide
theorem test_decode_lw :
    decode (0b100000000010#12 ++ 0b01001#5 ++ 0b010#3 ++ 0b11110#5 ++ 0b0000011#7) =
      .ok (.lw 30#5 9#5 0x802#12) := by decide
theorem test_decode_lbu :
    decode (0b100000000100#12 ++ 0b01001#5 ++ 0b100#3 ++ 0b11110#5 ++ 0b0000011#7) =
      .ok (.lbu 30#5 9#5 0x804#12) := by decide
theorem test_decode_lhu :
    decode (0b100000000101#12 ++ 0b01001#5 ++ 0b101#3 ++ 0b11110#5 ++ 0b0000011#7) =
      .ok (.lhu 30#5 9#5 0x805#12) := by decide
theorem test_decode_sb :
    decode (0b1111111#7 ++ 0b00010#5 ++ 0b00001#5 ++ 0b000#3 ++ 0b11100#5 ++ 0b0100011#7) =
      .ok (.sb 1#5 2#5 0xffc#12) := by decide
theorem test_decode_sh :
    decode (0b0000000#7 ++ 0b00010#5 ++ 0b00001#5 ++ 0b001#3 ++ 0b11111#5 ++ 0b0100011#7) =
      .ok (.sh 1#5 2#5 0x1f#12) := by decide
theorem test_decode_sw :
    decode (0b0111111#7 ++ 0b00010#5 ++ 0b00001#5 ++ 0b010#3 ++ 0b00000#5 ++ 0b0100011#7) =
      .ok (.sw 1#5 2#5 0x7e0#12) := by decide
theorem test_decode_addi :
    decode (0b101010111100#12 ++ 0b00001#5 ++ 0b000#3 ++ 0b00011#5 ++ 0b0010011#7) =
      .ok (.addi 3#5 1#5 0xabc#12) := by decide
theorem test_decode_slti :
    decode (0b101010111110#12 ++ 0b00001#5 ++ 0b010#3 ++ 0b00011#5 ++ 0b0010011#7) =
      .ok (.slti 3#5 1#5 0xabe#12) := by decide
theorem test_decode_sltiu :
    decode (0b101010111111#12 ++ 0b00001#5 ++ 0b011#3 ++ 0b00011#5 ++ 0b0010011#7) =
      .ok (.sltiu 3#5 1#5 0xabf#12) := by decide
theorem test_decode_xori :
    decode (0b101011000000#12 ++ 0b00001#5 ++ 0b100#3 ++ 0b00011#5 ++ 0b0010011#7) =
      .ok (.xori 3#5 1#5 0xac0#12) := by decide
theorem test_decode_ori :
    decode (0b101011000010#12 ++ 0b00001#5 ++ 0b110#3 ++ 0b00011#5 ++ 0b0010011#7) =
      .ok (.ori 3#5 1#5 0xac2#12) := by decide
theorem test_decode_andi :
    decode (0b101011000011#12 ++ 0b00001#5 ++ 0b111#3 ++ 0b00011#5 ++ 0b0010011#7) =
      .ok (.andi 3#5 1#5 0xac3#12) := by decide
theorem test_decode_slli :
    decode (0b000000100101#12 ++ 0b00001#5 ++ 0b001#3 ++ 0b00011#5 ++ 0b0010011#7) =
      .ok (.slli 3#5 1#5 0x025#12) := by decide
theorem test_decode_srli :
    decode (0b0000000#7 ++ 0b11111#5 ++ 0b00001#5 ++ 0b101#3 ++ 0b00011#5 ++ 0b0010011#7) =
      .ok (.srli 3#5 1#5 31#5) := by decide
theorem test_decode_srai :
    decode (0b0100000#7 ++ 0b00101#5 ++ 0b00001#5 ++ 0b101#3 ++ 0b00011#5 ++ 0b0010011#7) =
      .ok (.srai 3#5 1#5 5#5) := by decide
theorem test_decode_srai_any_nonzero_funct7 :
    decode (0b0000001#7 ++ 0b00101#5 ++ 0b00001#5 ++ 0b101#3 ++ 0b00011#5 ++ 0b0010011#7) =
      .ok (.srai 3#5 1#5 5#5) := by decide
theorem test_decode_add :
    decode (0b0000000#7 ++ 0b00010#5 ++ 0b00001#5 ++ 0b000#3 ++ 0b00011#5 ++ 0b0110011#7) =
      .ok (.add 3#5 1#5 2#5) := by decide
theorem test_decode_sub :
    decode (0b0100000#7 ++ 0b00010#5 ++ 0b00001#5 ++ 0b000#3 ++ 0b00011#5 ++ 0b0110011#7) =
      .ok (.sub 0x20#7 3#5 1#5 2#5) := by decide
theorem test_decode_sub_any_nonzero_funct7 :
    decode (0b0000001#7 ++ 0b00010#5 ++ 0b00001#5 ++ 0b000#3 ++ 0b00011#5 ++ 0b0110011#7) =
      .ok (.sub 1#7 3#5 1#5 2#5) := by decide
theorem test_decode_sll :
    decode (0b1000001#7 ++ 0b10101#5 ++ 0b01010#5 ++ 0b001#3 ++ 0b01011#5 ++ 0b0110011#7) =
      .ok (.sll 0x41#7 11#5 10#5 21#5) := by decide
theorem test_decode_slt :
    decode (0b1000010#7 ++ 0b10101#5 ++ 0b01010#5 ++ 0b010#3 ++ 0b01011#5 ++ 0b0110011#7) =
      .ok (.slt 0x42#7 11#5 10#5 21#5) := by decide
theorem test_decode_sltu :
    decode (0b1000011#7 ++ 0b10101#5 ++ 0b01010#5 ++ 0b011#3 ++ 0b01011#5 ++ 0b0110011#7) =
      .ok (.sltu 0x43#7 11#5 10#5 21#5) := by decide
theorem test_decode_xor :
    decode (0b1000100#7 ++ 0b10101#5 ++ 0b01010#5 ++ 0b100#3 ++ 0b01011#5 ++ 0b0110011#7) =
      .ok (.xor 0x44#7 11#5 10#5 21#5) := by decide
theorem test_decode_or :
    decode (0b1000110#7 ++ 0b10101#5 ++ 0b01010#5 ++ 0b110#3 ++ 0b01011#5 ++ 0b0110011#7) =
      .ok (.or 0x46#7 11#5 10#5 21#5) := by decide
theorem test_decode_and :
    decode (0b1000111#7 ++ 0b10101#5 ++ 0b01010#5 ++ 0b111#3 ++ 0b01011#5 ++ 0b0110011#7) =
      .ok (.and 0x47#7 11#5 10#5 21#5) := by decide
theorem test_decode_srl :
    decode (0b0000000#7 ++ 0b10101#5 ++ 0b01010#5 ++ 0b101#3 ++ 0b01011#5 ++ 0b0110011#7) =
      .ok (.srl 11#5 10#5 21#5) := by decide
theorem test_decode_sra :
    decode (0b0101010#7 ++ 0b10101#5 ++ 0b01010#5 ++ 0b101#3 ++ 0b01011#5 ++ 0b0110011#7) =
      .ok (.sra 0x2A#7 11#5 10#5 21#5) := by decide
theorem test_decode_fence :
    decode (0b000011111111#12 ++ 0b00000#5 ++ 0b000#3 ++ 0b00000#5 ++ 0b0001111#7) =
      .ok (.fence 0#5 0#5 0x0FF#12) := by decide
theorem test_decode_fencei :
    decode (0b000000000000#12 ++ 0b00000#5 ++ 0b001#3 ++ 0b00000#5 ++ 0b0001111#7) =
      .ok (.fencei 0#5 0#5 0#12) := by decide

/-- 95_test_vectors.md section 2.1: fallthrough words, each rejected by its own name. -/
theorem test_decode_rejects_by_name :
    decode 0x00000000#32 = .error (.noSuchOpcode 0#7) ∧ decode 0x00000073#32 = .error (.noSuchOpcode 0x73#7) ∧
    decode 0x00002063#32 = .error (.branchFunct3 2#3) ∧ decode 0x00003003#32 = .error (.loadFunct3 3#3) ∧
    decode 0x00007023#32 = .error (.storeFunct3 7#3) ∧ decode 0x0000200F#32 = .error (.fenceFunct3 2#3) := by decide
/-- Fewer than four bytes are no instruction (R70). -/
theorem test_decode_too_short : decodeBytes [0x13#8, 0#8, 0#8] = .error (.tooShort 3) := by decide
/-- R41: the byte at the lowest address holds the opcode. -/
theorem test_decode_bytes : decodeBytes [0x13#8, 0x05#8, 0x15#8, 0x00#8, 0xAA#8] =
    .ok (.addi 10#5 10#5 1#12, [0xAA#8]) := by decide
theorem test_decodeTableWord : decodeTableWord 32 0xFEB54EE3 = some (.blt 10#5 11#5 0x1FFC#13) ∧
    decodeTableWord 32 0 = none := by decide
/-- 95_test_vectors.md section 2.1, the record of SLLI with all immediate bits set and of SRAI. -/
theorem test_record_shift_immediates :
    decodeRecord 0xFFF09193#32 =
      ⟨.SLLI, some 1#3, none, some 3#5, some 1#5, none, some 0xFFF#32, some 0xFFFFFFFF#32⟩ ∧
    decodeRecord 0xFFF0D193#32 = ⟨.SRAI, some 5#3, none, some 3#5, some 1#5, none, some 31#32, some 31#32⟩ := by decide
/-- 95_test_vectors.md E4: a J immediate of all ones but bit 0 is -2. -/
theorem test_record_jal : decodeRecord 0xFFFFF06F#32 =
    ⟨.JAL, none, none, some 0#5, none, none, some 0x1FFFFE#32, some 0xFFFFFFFE#32⟩ := by decide
/-- The canonical words of R108 for the rows with a `funct7`. -/
theorem test_encode_canonical : encode (.srai 3#5 1#5 5#5) = 0x4050D193#32 ∧
    encode (.sub 0x20#7 3#5 1#5 2#5) = 0x402081B3#32 ∧ encode (.bne 1#5 2#5 0x1FF8#13) = 0xFE209CE3#32 ∧
    encode (.jal 1#5 0xFF000#21) = 0x000FF0EF#32 ∧ encode (.sw 1#5 2#5 0xFFC#12) = 0xFE20AE23#32 := by decide

/-! ### WellFormed: one ill-formed term for each check -/

theorem test_wf_refuses_odd_beq : (Instr.beq 1#5 2#5 0x011#13).wf = false := by decide
theorem test_wf_refuses_odd_bne : (Instr.bne 1#5 2#5 0x011#13).wf = false := by decide
theorem test_wf_refuses_odd_blt : (Instr.blt 1#5 2#5 0x011#13).wf = false := by decide
theorem test_wf_refuses_odd_bge : (Instr.bge 1#5 2#5 0x011#13).wf = false := by decide
theorem test_wf_refuses_odd_bltu : (Instr.bltu 1#5 2#5 0x011#13).wf = false := by decide
theorem test_wf_refuses_odd_bgeu : (Instr.bgeu 1#5 2#5 0x011#13).wf = false := by decide
theorem test_wf_refuses_odd_jal : (Instr.jal 1#5 0x000011#21).wf = false := by decide
theorem test_wf_refuses_sub_zero_funct7 : (Instr.sub 0#7 3#5 1#5 2#5).wf = false := by decide
theorem test_wf_refuses_sra_zero_funct7 : (Instr.sra 0#7 3#5 1#5 2#5).wf = false := by decide

/-! ### Execution: 95_test_vectors.md sections 2.2 to 2.9 -/

theorem test_add_wraps :
    okWith (cycle 0x002081B3 (machine [(1#5, 0xFFFFFFFF#32), (2#5, 0x2#32)] [] 0#32))
      (fun t => t.readReg 3#5 == 0x1#32 && t.pc == 4#32) = true := by decide
theorem test_add_same_registers :
    okWith (cycle 0x003181B3 (machine [(3#5, 0x40000000#32)] [] 0#32))
      (fun t => t.readReg 3#5 == 0x80000000#32 && t.pc == 4#32) = true := by decide
theorem test_sub_borrows :
    okWith (cycle 0x402081B3 (machine [(1#5, 0x3#32), (2#5, 0x5#32)] [] 0#32))
      (fun t => t.readReg 3#5 == 0xFFFFFFFE#32 && t.pc == 4#32) = true := by decide
theorem test_sub_funct7_one :
    okWith (cycle 0x022081B3 (machine [(1#5, 0x3#32), (2#5, 0x5#32)] [] 0#32))
      (fun t => t.readReg 3#5 == 0xFFFFFFFE#32 && t.pc == 4#32) = true := by decide
theorem test_sll_amount_of_five_bits :
    okWith (cycle 0x002091B3 (machine [(1#5, 0x1#32), (2#5, 0x21#32)] [] 0#32))
      (fun t => t.readReg 3#5 == 0x2#32 && t.pc == 4#32) = true := by decide
theorem test_slt_signed :
    okWith (cycle 0x0020A1B3 (machine [(1#5, 0x80000000#32), (2#5, 0x7FFFFFFF#32)] [] 0#32))
      (fun t => t.readReg 3#5 == 0x1#32 && t.pc == 4#32) = true := by decide
theorem test_slt_not_below_minus_one :
    okWith (cycle 0x0020A1B3 (machine [(1#5, 0x0#32), (2#5, 0xFFFFFFFF#32)] [] 0#32))
      (fun t => t.readReg 3#5 == 0x0#32 && t.pc == 4#32) = true := by decide
theorem test_sltu_unsigned :
    okWith (cycle 0x0020B1B3 (machine [(1#5, 0xFFFFFFFF#32), (2#5, 0x1#32)] [] 0#32))
      (fun t => t.readReg 3#5 == 0x0#32 && t.pc == 4#32) = true := by decide
theorem test_xor :
    okWith (cycle 0x0020C1B3 (machine [(1#5, 0xFF00FF00#32), (2#5, 0xFF00FF0#32)] [] 0#32))
      (fun t => t.readReg 3#5 == 0xF0F0F0F0#32 && t.pc == 4#32) = true := by decide
theorem test_srl_logical :
    okWith (cycle 0x0020D1B3 (machine [(1#5, 0xFFFFFFFF#32), (2#5, 0x4#32)] [] 0#32))
      (fun t => t.readReg 3#5 == 0xFFFFFFF#32 && t.pc == 4#32) = true := by decide
theorem test_sra_arithmetic :
    okWith (cycle 0x4020D1B3 (machine [(1#5, 0x80000010#32), (2#5, 0x4#32)] [] 0#32))
      (fun t => t.readReg 3#5 == 0xF8000001#32 && t.pc == 4#32) = true := by decide
theorem test_sra_is_no_division :
    okWith (cycle 0x02A5D5B3 (machine [(11#5, 0x80000000#32), (10#5, 0x4#32)] [] 0#32))
      (fun t => t.readReg 11#5 == 0xF8000000#32 && t.pc == 4#32) = true := by decide
theorem test_or :
    okWith (cycle 0x0020E1B3 (machine [(1#5, 0xFF00FF00#32), (2#5, 0xFF00FF0#32)] [] 0#32))
      (fun t => t.readReg 3#5 == 0xFFF0FFF0#32 && t.pc == 4#32) = true := by decide
theorem test_and :
    okWith (cycle 0x0020F1B3 (machine [(1#5, 0xFF00FF00#32), (2#5, 0xFF00FF0#32)] [] 0#32))
      (fun t => t.readReg 3#5 == 0xF000F00#32 && t.pc == 4#32) = true := by decide
theorem test_addi_negative :
    okWith (cycle 0x80008193 (machine [(1#5, 0x0#32)] [] 0#32))
      (fun t => t.readReg 3#5 == 0xFFFFF800#32 && t.pc == 4#32) = true := by decide
theorem test_addi_rd_is_rs1 :
    okWith (cycle 0x00150513 (machine [(10#5, 0x2#32)] [] 0#32))
      (fun t => t.readReg 10#5 == 0x3#32 && t.pc == 4#32) = true := by decide
theorem test_slti_equal :
    okWith (cycle 0x8000A193 (machine [(1#5, 0xFFFFF800#32)] [] 0#32))
      (fun t => t.readReg 3#5 == 0x0#32 && t.pc == 4#32) = true := by decide
theorem test_slti_below :
    okWith (cycle 0xFFF0A193 (machine [(1#5, 0xFFFFFFFE#32)] [] 0#32))
      (fun t => t.readReg 3#5 == 0x1#32 && t.pc == 4#32) = true := by decide
theorem test_sltiu_extends_first :
    okWith (cycle 0x8000B193 (machine [(1#5, 0xFFFFF7FF#32)] [] 0#32))
      (fun t => t.readReg 3#5 == 0x1#32 && t.pc == 4#32) = true := by decide
theorem test_xori_extends :
    okWith (cycle 0x8000C193 (machine [(1#5, 0x0#32)] [] 0#32))
      (fun t => t.readReg 3#5 == 0xFFFFF800#32 && t.pc == 4#32) = true := by decide
theorem test_ori_extends :
    okWith (cycle 0x8000E193 (machine [(1#5, 0x123#32)] [] 0#32))
      (fun t => t.readReg 3#5 == 0xFFFFF923#32 && t.pc == 4#32) = true := by decide
theorem test_andi_extends :
    okWith (cycle 0x8000F193 (machine [(1#5, 0xFFFFFFFF#32)] [] 0#32))
      (fun t => t.readReg 3#5 == 0xFFFFF800#32 && t.pc == 4#32) = true := by decide
theorem test_slli_masks :
    okWith (cycle 0xFFF09193 (machine [(1#5, 0x1#32)] [] 0#32))
      (fun t => t.readReg 3#5 == 0x80000000#32 && t.pc == 4#32) = true := by decide
theorem test_srli :
    okWith (cycle 0x0050D193 (machine [(1#5, 0x80000000#32)] [] 0#32))
      (fun t => t.readReg 3#5 == 0x4000000#32 && t.pc == 4#32) = true := by decide
theorem test_srai :
    okWith (cycle 0x4050D193 (machine [(1#5, 0x80000000#32)] [] 0#32))
      (fun t => t.readReg 3#5 == 0xFC000000#32 && t.pc == 4#32) = true := by decide
theorem test_lui :
    okWith (cycle 0x123452B7 (machine [] [] 0x40#32))
      (fun t => t.readReg 5#5 == 0x12345000#32 && t.pc == 0x44#32) = true := by decide
theorem test_auipc_own :
    okWith (cycle 0xFFFFF297 (machine [] [] 0x100#32))
      (fun t => t.readReg 5#5 == 0xFFFFF100#32 && t.pc == 0x104#32) = true := by decide
theorem test_auipc_next :
    okWith (cycle 0xFFFFF297 (machineOf ⟨131072, 0#32, .next⟩ [] [] 0x100#32))
      (fun t => t.readReg 5#5 == 0xFFFFF104#32) = true := by decide
theorem test_jal_back :
    okWith (cycle 0xFF1FF0EF (machine [] [] 0x8#32))
      (fun t => t.readReg 1#5 == 0xC#32 && t.pc == 0xFFFFFFF8#32) = true := by decide
theorem test_jal_next :
    okWith (cycle 0xFF1FF0EF (machineOf ⟨131072, 0#32, .next⟩ [] [] 0x8#32))
      (fun t => t.readReg 1#5 == 0xC#32 && t.pc == 0xFFFFFFFC#32) = true := by decide
theorem test_jalr_old_rs1 :
    okWith (cycle 0x000080E7 (machine [(1#5, 0x300#32)] [] 0x40#32))
      (fun t => t.readReg 1#5 == 0x44#32 && t.pc == 0x300#32) = true := by decide
theorem test_jalr_clears_bit_zero :
    okWith (cycle 0xFFD280E7 (machine [(5#5, 0x200#32)] [] 0x40#32))
      (fun t => t.readReg 1#5 == 0x44#32 && t.pc == 0x1FC#32) = true := by decide
theorem test_beq_taken :
    okWith (cycle 0x00208863 (machine [(1#5, 0x5#32), (2#5, 0x5#32)] [] 0x100#32))
      (fun t => t.pc == 0x110#32) = true := by decide
theorem test_beq_not :
    okWith (cycle 0x00208863 (machine [(1#5, 0x5#32), (2#5, 0x6#32)] [] 0x100#32))
      (fun t => t.pc == 0x104#32) = true := by decide
theorem test_bne_taken :
    okWith (cycle 0x00209863 (machine [(1#5, 0x1#32), (2#5, 0xFFFFFFFF#32)] [] 0x100#32))
      (fun t => t.pc == 0x110#32) = true := by decide
theorem test_bne_not :
    okWith (cycle 0x00209863 (machine [(1#5, 0x5#32), (2#5, 0x5#32)] [] 0x100#32))
      (fun t => t.pc == 0x104#32) = true := by decide
theorem test_blt_taken :
    okWith (cycle 0x0020C863 (machine [(1#5, 0xFFFFFFFF#32), (2#5, 0x1#32)] [] 0x100#32))
      (fun t => t.pc == 0x110#32) = true := by decide
theorem test_blt_not :
    okWith (cycle 0x0020C863 (machine [(1#5, 0x1#32), (2#5, 0xFFFFFFFF#32)] [] 0x100#32))
      (fun t => t.pc == 0x104#32) = true := by decide
theorem test_bge_taken :
    okWith (cycle 0x0020D863 (machine [(1#5, 0x1#32), (2#5, 0xFFFFFFFF#32)] [] 0x100#32))
      (fun t => t.pc == 0x110#32) = true := by decide
theorem test_bge_not :
    okWith (cycle 0x0020D863 (machine [(1#5, 0x80000000#32), (2#5, 0x7FFFFFFF#32)] [] 0x100#32))
      (fun t => t.pc == 0x104#32) = true := by decide
theorem test_bltu_taken :
    okWith (cycle 0x0020E863 (machine [(1#5, 0x1#32), (2#5, 0xFFFFFFFF#32)] [] 0x100#32))
      (fun t => t.pc == 0x110#32) = true := by decide
theorem test_bltu_not :
    okWith (cycle 0x0020E863 (machine [(1#5, 0xFFFFFFFF#32), (2#5, 0x1#32)] [] 0x100#32))
      (fun t => t.pc == 0x104#32) = true := by decide
theorem test_bgeu_taken :
    okWith (cycle 0x0020F863 (machine [(1#5, 0x5#32), (2#5, 0x5#32)] [] 0x100#32))
      (fun t => t.pc == 0x110#32) = true := by decide
theorem test_bgeu_not :
    okWith (cycle 0x0020F863 (machine [(1#5, 0x1#32), (2#5, 0xFFFFFFFF#32)] [] 0x100#32))
      (fun t => t.pc == 0x104#32) = true := by decide
theorem test_lb_sign :
    okWith (cycle 0x00108183 (machine [(1#5, 0x200#32)] loaded 0x10#32))
      (fun t => t.readReg 3#5 == 0xFFFFFF80#32 && t.pc == 0x14#32) = true := by decide
theorem test_lbu_zero :
    okWith (cycle 0x0020C183 (machine [(1#5, 0x200#32)] loaded 0x10#32))
      (fun t => t.readReg 3#5 == 0xFF#32 && t.pc == 0x14#32) = true := by decide
theorem test_lh_odd :
    okWith (cycle 0x00109183 (machine [(1#5, 0x200#32)] loaded 0x10#32))
      (fun t => t.readReg 3#5 == 0xFFFFFF80#32 && t.pc == 0x14#32) = true := by decide
theorem test_lhu_odd :
    okWith (cycle 0x0010D183 (machine [(1#5, 0x200#32)] loaded 0x10#32))
      (fun t => t.readReg 3#5 == 0xFF80#32 && t.pc == 0x14#32) = true := by decide
theorem test_lw_old_rs1 :
    okWith (cycle 0x0001A183 (machine [(3#5, 0x200#32)] loaded 0x10#32))
      (fun t => t.readReg 3#5 == 0xFF807F#32 && t.pc == 0x14#32) = true := by decide
theorem test_sb_low_byte :
    okWith (cycle 0x00208023 (machine [(1#5, 0x200#32), (2#5, 0x11223344#32)] stored 0x10#32))
      (fun t => (List.range 2).map (fun i => t.mem.readByte (0x200 + i)) == [0x44#8, 0xAA#8] &&
        t.pc == 0x14#32) = true := by decide
theorem test_sh_odd :
    okWith (cycle 0x002090A3 (machine [(1#5, 0x200#32), (2#5, 0x11223344#32)] stored 0x10#32))
      (fun t => (List.range 4).map (fun i => t.mem.readByte (0x200 + i)) == [0xAA#8, 0x44#8, 0x33#8, 0x00#8] &&
        t.pc == 0x14#32) = true := by decide
theorem test_sw_odd :
    okWith (cycle 0x0020A0A3 (machine [(1#5, 0x200#32), (2#5, 0x11223344#32)] stored 0x10#32))
      (fun t => (List.range 6).map (fun i => t.mem.readByte (0x200 + i)) == [0xAA#8, 0x44#8, 0x33#8, 0x22#8, 0x11#8, 0xAA#8] &&
        t.pc == 0x14#32) = true := by decide

/-- A store of what an unlisted byte reads as removes the entry: memory stays canonical. -/
theorem test_store_of_zero_is_canonical :
    okWith (exec (.sb 1#5 0#5 0#12) (machine [(1#5, 0x200#32)] [(0x200, 0x44#8)] 0x10#32)) (fun t => t.mem == ⟨[]⟩) =
      true := by decide

theorem test_lw_no_wrap :
    faultOf (cycle 0xFFC02183 (machine [] [] 0x10#32)) =
      some (.memoryOutOfBounds .load 0xFFFFFFFC#32 4 0x10#32) := by decide
theorem test_sh_out_of_bounds :
    faultOf (cycle 0xFE209FA3 (machine [(1#5, 0x20000#32)] [] 0x10#32)) =
      some (.memoryOutOfBounds .store 0x1FFFF#32 2 0x10#32) := by decide
theorem test_fence_is_fatal :
    faultOf (cycle 0x0FF0000F (machine [] [] 0x40#32)) =
      some (.unimplementedInstruction 0x40#32 0x0FF0000F#32) := by decide
theorem test_fencei_is_fatal :
    faultOf (cycle 0x0000100F (machine [] [] 0x40#32)) =
      some (.unimplementedInstruction 0x40#32 0x0000100F#32) := by decide
theorem test_invalid_is_fatal :
    faultOf (cycle 0x00002063 (machine [] [] 0x40#32)) =
      some (.unimplementedInstruction 0x40#32 0x00002063#32) := by decide
theorem test_fetch_out_of_bounds :
    faultOf (cycle 0x00000013 (machine [] [] 0x1FFFE#32)) =
      some (.memoryOutOfBounds .fetch 0x1FFFE#32 4 0x1FFFE#32) := by decide

/-- From reset with nothing loaded, the first cycle meets the zero word (log entry 16). -/
theorem test_first_cycle_of_empty_memory : faultOf (step State.reset) = some (.unimplementedInstruction 0#32 0#32) := by
  decide
/-- A pc that is not a multiple of 4 fetches (95_test_vectors.md section 2.9). -/
theorem test_fetch_unaligned : okWith (cycle 0x00000013 (machine [] [] 0x12#32)) (fun t => t.pc == 0x16#32) = true := by
  decide
/-- The trace sink sees the record of the word at the pc. -/
theorem test_trace : ((machine [] [] 0#32).withFetchWord 32 0x00150513).traceRecord =
    some ⟨.ADDI, some 0#3, none, some 10#5, some 10#5, none, some 1#32, some 1#32⟩ := by decide
/-- Reading a register never written is no fault; the guard refuses index 32 (R243). -/
theorem test_register_guard : State.reset.readRegGuarded 31 = .ok 0#32 ∧
    State.reset.readRegGuarded 32 = .error .internalInvariant := by decide

/-! ### Witnesses: for each statement with hypotheses, inputs that meet them -/

/-- Widths 1 and 32 are both in range. -/
theorem witness_ExtensionKeepsTheFieldsReading :
    (1 ≤ 1 ∧ 1 ≤ 32 ∧ (sext 1#1).toInt = -1 ∧ (zext 1#1).toNat = 1) ∧
    (1 ≤ 32 ∧ 32 ≤ 32 ∧ (sext 0x80000000#32).toInt = -2147483648 ∧ (zext 0x80000000#32).toNat = 2147483648) := by decide
/-- The lowest and highest bit of each immediate. -/
theorem witness_ImmediateBitsComeFromTheirSlices :
    (0 < 12 ∧ 11 < 12 ∧ (immIOf 0x80100000#32).getLsbD 0 = true ∧ (immIOf 0x80100000#32).getLsbD 11 = true) ∧
    ((immSOf 0x80000F80#32).getLsbD 4 = true ∧ (immSOf 0x80000F80#32).getLsbD 5 = false ∧
      (immSOf 0x80000F80#32).getLsbD 11 = true) ∧
    (12 < 13 ∧ (immBOf 0x80000080#32).getLsbD 11 = true ∧ (immBOf 0x80000080#32).getLsbD 12 = true) ∧
    (31 < 32 ∧ (immU (imm20Of 0x80001FFF#32)).getLsbD 11 = false ∧ (immU (imm20Of 0x80001FFF#32)).getLsbD 12 = true) ∧
    (20 < 21 ∧ (immJOf 0x80180000#32).getLsbD 11 = true ∧ (immJOf 0x80180000#32).getLsbD 19 = true ∧
      (immJOf 0x80180000#32).getLsbD 20 = true) := by decide
/-- One word of each format that has an immediate. -/
theorem witness_RecordImmediateIsSignExtended :
    (formatOf (decodeRecord 0x80008193#32).operation = some .I ∧ (decodeRecord 0x80008193#32).imm = some 0x800#32 ∧
      (decodeRecord 0x80008193#32).simm = some 0xFFFFF800#32) ∧
    (formatOf (decodeRecord 0x8020A023#32).operation = some .S ∧ (decodeRecord 0x8020A023#32).imm = some 0x800#32 ∧
      (decodeRecord 0x8020A023#32).simm = some 0xFFFFF800#32) ∧
    (formatOf (decodeRecord 0x80208063#32).operation = some .B ∧ (decodeRecord 0x80208063#32).imm = some 0x1000#32 ∧
      (decodeRecord 0x80208063#32).simm = some 0xFFFFF000#32) ∧
    (formatOf (decodeRecord 0xFFFFF2B7#32).operation = some .U ∧ (decodeRecord 0xFFFFF2B7#32).imm = some 0xFFFFF000#32 ∧
      (decodeRecord 0xFFFFF2B7#32).simm = some 0xFFFFF000#32) ∧
    (formatOf (decodeRecord 0x800000EF#32).operation = some .J ∧ (decodeRecord 0x800000EF#32).imm = some 0x100000#32 ∧
      (decodeRecord 0x800000EF#32).simm = some 0xFFF00000#32) := by decide
theorem witness_ShiftImmediateRecords :
    (opcodeOf 0x4050D193#32 = 0x13#7 ∧ funct3Of 0x4050D193#32 = 5#3) ∧
    (opcodeOf 0xFFF09193#32 = 0x13#7 ∧ funct3Of 0xFFF09193#32 = 1#3) := by decide
/-- One word of each format, and one of none. -/
theorem witness_RecordSetsExactlyItsFormatsFields :
    formatOf (decodeRecord 0x002081B3#32).operation = some .R ∧ formatOf (decodeRecord 0x00000013#32).operation = some .I ∧
    formatOf (decodeRecord 0x0020A423#32).operation = some .S ∧ formatOf (decodeRecord 0x00000063#32).operation = some .B ∧
    formatOf (decodeRecord 0x123452B7#32).operation = some .U ∧ formatOf (decodeRecord 0x010000EF#32).operation = some .J ∧
    formatOf (decodeRecord 0x00000000#32).operation = none ∧
    (decodeRecord 0x4010D193#32).operation = .SRAI ∧ (decodeRecord 0x4010D193#32).imm = some 1#32 ∧
    (decodeRecord 0x00109193#32).operation = .SLLI ∧ (decodeRecord 0x40109193#32).imm = some 0x401#32 := by decide
/-- Each clause of the list at its boundary values, and the neighbours that do decode. -/
theorem witness_FallthroughWordsExactly :
    ([0x00000000#32, 0xFFFFFFFF#32, 0x00002063#32, 0x00003063#32, 0x00003003#32, 0x00006003#32, 0x00007003#32,
      0x00003023#32, 0x00007023#32, 0x0000200F#32, 0x0000700F#32].all fun w => (decodeRecord w).operation == .INVALID) =
        true ∧
    ([0x00001063#32, 0x00004063#32, 0x00002003#32, 0x00004003#32, 0x00005003#32, 0x00002023#32, 0x0000100F#32].any
      fun w => (decodeRecord w).operation == .INVALID) = false := by decide
/-- Words that meet the hypotheses of clauses (a) to (d), and a row that accepts a word. -/
theorem witness_DecoderAgreesWithTheOpcodeTable :
    (⟨.SRAI, 0x40005013#32, 0x0000707F#32, .isNonzero⟩ ∈ opcodeTable ∧
      (⟨.SRAI, 0x40005013#32, 0x0000707F#32, .isNonzero⟩ : Row).accepts 0x0250D193#32 = true) ∧
    (opcodeOf 0x022081B3#32 = 0x33#7 ∧ funct7Of 0x022081B3#32 ≠ 0#7 ∧ funct3Of 0x022081B3#32 = 0#3) ∧
    (opcodeOf 0x02A5D5B3#32 = 0x33#7 ∧ funct7Of 0x02A5D5B3#32 ≠ 0#7 ∧ funct3Of 0x02A5D5B3#32 = 5#3) ∧
    (opcodeOf 0x0250D193#32 = 0x13#7 ∧ funct3Of 0x0250D193#32 = 5#3 ∧ funct7Of 0x0250D193#32 ≠ 0#7) ∧
    (opcodeOf 0xFE0FFFB3#32 = opcodeOf 0x01F07FB3#32 ∧ funct3Of 0xFE0FFFB3#32 = funct3Of 0x01F07FB3#32 ∧
      opcodeOf 0xFE0FFFB3#32 = 0x33#7 ∧ funct3Of 0xFE0FFFB3#32 ∉ [0#3, 5#3]) ∧
    (opcodeOf 0xFFF09193#32 = 0x13#7 ∧ funct3Of 0xFFF09193#32 = 1#3) ∧ opcodeOf 0x0000A067#32 = 0x67#7 :=
  ⟨⟨by decide, by decide⟩, by decide, by decide, by decide, by decide, by decide, by decide⟩
/-- Well-formed instructions with an operand at the end of its range, for each check. -/
theorem witness_DecodeEncodeRoundTrip : (Instr.jal 31#5 0x1FFFFE#21).wf = true ∧ (Instr.beq 0#5 31#5 0x1FFE#13).wf = true ∧
    (Instr.sub 0x7F#7 31#5 0#5 31#5).wf = true ∧ (Instr.sra 1#7 0#5 31#5 0#5).wf = true ∧
    (Instr.srai 0#5 0#5 31#5).wf = true := by decide
/-- An SRAI word whose `raw[31:25]` is not the encoder's 0x20, and a jump. -/
theorem witness_EncodeDecodeRoundTrip : decode 0x0250D193#32 = .ok (.srai 3#5 1#5 5#5) ∧
    decode 0x7FFFF0EF#32 = .ok (.jal 1#5 0xFFFFE#21) := by decide
/-- The loader's word fits at the very end of memory. -/
theorem witness_CreationAndPreparationOfTheState : State.reset.mem.wf ∧
    ∃ t, State.reset.loadWord 0x1FFFC#32 0x12345678#32 = .ok t := ⟨by decide, _, memWrite_ok _ _ _ (by decide)⟩
/-- What the loader's own store carries out of bounds is the model's choice (log entries 26, 27). -/
theorem test_loader_out_of_bounds :
    State.reset.loadWord 0x1FFFD#32 0x13#32 = .error (.memoryOutOfBounds .store 0x1FFFD#32 4 0#32) ∧
    State.reset.loadWords (2 ^ 32) [0x13#32] = .error (.memoryOutOfBounds .store 0#32 4 0#32) :=
  ⟨memWrite_error _ _ _ (by decide), if_neg (by decide)⟩
theorem witness_RegisterZeroDiscardsWrites : (1#5 : RegIdx) ≠ 0#5 ∧ (31#5 : RegIdx) ≠ 0#5 ∧ (0#5 : RegIdx) ≠ 31#5 ∧
    faultOf (exec (.lw 0#5 1#5 0#12) (machine [(1#5, 0x1FFFD#32)] [] 0#32)) =
      some (.memoryOutOfBounds .load 0x1FFFD#32 4 0#32) := by decide
theorem witness_RegisterGuardIsNeverReached : 32 ≤ 32 ∧ State.reset.readRegGuarded 32 = .error .internalInvariant ∧
    State.reset.readRegGuarded (31#5 : RegIdx).toNat = .ok 0#32 := by decide
/-- The last word of memory, and the first address past it. -/
theorem witness_BoundsTestIsUnbounded : (0x1FFFC#32).toNat + Width.word.bytes ≤ State.reset.cfg.memSize ∧
    State.reset.cfg.memSize < (0x1FFFD#32).toNat + Width.word.bytes ∧
    State.reset.cfg.memSize < (0xFFFFFFFE#32).toNat + Width.word.bytes := by decide
theorem witness_MemReadIsTheLittleEndianSum : (0x1FFFE#32).toNat + Width.half.bytes ≤ State.reset.cfg.memSize ∧
    State.reset.cfg.memSize < (0x1FFFF#32).toNat + Width.half.bytes := by decide
theorem witness_MemWriteSetsOnlyItsBytes : State.reset.mem.wf ∧
    (0x1FFFF#32).toNat + Width.byte.bytes ≤ State.reset.cfg.memSize ∧
    State.reset.cfg.memSize < (0x20000#32).toNat + Width.byte.bytes ∧ 0 < Width.byte.bytes ∧ 3 < Width.word.bytes := by
  decide
/-- A state with the invariant, and words written at an odd address and at the end of memory. -/
theorem witness_MixedWidthReadsSeeTheBytes : State.reset.Inv ∧
    (∃ t, State.reset.memWrite 1#32 .word 0x89ABCDEF#32 = .ok t) ∧
    ∃ t, State.reset.memWrite 0x1FFFC#32 .word 0x89ABCDEF#32 = .ok t :=
  ⟨by decide, ⟨_, memWrite_ok _ _ _ (by decide)⟩, ⟨_, memWrite_ok _ _ _ (by decide)⟩⟩
theorem witness_StoredWordIsLoadedBack : State.reset.Inv ∧
    (∃ t, State.reset.memWrite 0x101#32 .word 0xDEADBEEF#32 = .ok t) ∧
    ∃ t, State.reset.memWrite 0x1FFFC#32 .word 0xDEADBEEF#32 = .ok t :=
  ⟨by decide, ⟨_, memWrite_ok _ _ _ (by decide)⟩, ⟨_, memWrite_ok _ _ _ (by decide)⟩⟩
theorem witness_AddAndSubWrap : (opcodeOf 0x002081B3#32 = opARITH ∧ funct3Of 0x002081B3#32 = 0#3 ∧
    funct7Of 0x002081B3#32 = 0#7) ∧ (opcodeOf 0x022081B3#32 = opARITH ∧ funct3Of 0x022081B3#32 = 0#3 ∧
    funct7Of 0x022081B3#32 ≠ 0#7) := by decide
theorem witness_RegisterShiftsUseFiveBits : (opcodeOf 0x002091B3#32 = opARITH ∧ funct3Of 0x002091B3#32 = 1#3) ∧
    (opcodeOf 0x0020D1B3#32 = opARITH ∧ funct3Of 0x0020D1B3#32 = 5#3 ∧ funct7Of 0x0020D1B3#32 = 0#7) ∧
    (opcodeOf 0x02A5D5B3#32 = opARITH ∧ funct3Of 0x02A5D5B3#32 = 5#3 ∧ funct7Of 0x02A5D5B3#32 ≠ 0#7) := by decide
theorem witness_SetLessThanWritesOneOrZero : (opcodeOf 0x0020A1B3#32 = opARITH ∧ funct3Of 0x0020A1B3#32 = 2#3) ∧
    (opcodeOf 0x0020B1B3#32 = opARITH ∧ funct3Of 0x0020B1B3#32 = 3#3) := by decide
theorem witness_RegisterLogicIsBitwise : (opcodeOf 0x0020C1B3#32 = opARITH ∧ funct3Of 0x0020C1B3#32 = 4#3) ∧
    (opcodeOf 0x0020E1B3#32 = opARITH ∧ funct3Of 0x0020E1B3#32 = 6#3) ∧
    (opcodeOf 0x0020F1B3#32 = opARITH ∧ funct3Of 0x0020F1B3#32 = 7#3) ∧ 31 < 32 := by decide
theorem witness_AddImmediateWraps : opcodeOf 0xFFF08193#32 = opARITHIMM ∧ funct3Of 0xFFF08193#32 = 0#3 := by decide
theorem witness_SetLessThanImmediate : opcodeOf 0xFFF0A193#32 = opARITHIMM ∧ funct3Of 0xFFF0A193#32 = 2#3 := by decide
theorem witness_SetLessThanImmediateUnsigned : opcodeOf 0xFFF0B193#32 = opARITHIMM ∧ funct3Of 0xFFF0B193#32 = 3#3 := by
  decide
theorem witness_ImmediateLogicIsBitwise : (opcodeOf 0xFFF0C193#32 = opARITHIMM ∧ funct3Of 0xFFF0C193#32 = 4#3) ∧
    (opcodeOf 0xFFF0E193#32 = opARITHIMM ∧ funct3Of 0xFFF0E193#32 = 6#3) ∧
    (opcodeOf 0xFFF0F193#32 = opARITHIMM ∧ funct3Of 0xFFF0F193#32 = 7#3) ∧ 31 < 32 := by decide
theorem witness_ImmediateShiftsUseFiveBits : (opcodeOf 0x02509193#32 = opARITHIMM ∧ funct3Of 0x02509193#32 = 1#3) ∧
    (opcodeOf 0x0050D193#32 = opARITHIMM ∧ funct3Of 0x0050D193#32 = 5#3 ∧ funct7Of 0x0050D193#32 = 0#7) ∧
    (opcodeOf 0x0250D193#32 = opARITHIMM ∧ funct3Of 0x0250D193#32 = 5#3 ∧ funct7Of 0x0250D193#32 ≠ 0#7) := by decide
theorem witness_LoadUpperImmediate : opcodeOf 0xFFFFF2B7#32 = opLUI := by decide
theorem witness_AddUpperImmediateToPc : opcodeOf 0xFFFFF297#32 = opAUIPC := by decide
theorem witness_JumpAndLink : opcodeOf 0x7FFFF0EF#32 = opJAL := by decide
theorem witness_JumpAndLinkRegister : opcodeOf 0x0000A067#32 = opJALR := by decide
/-- Both directions of each pair of relations occur. -/
theorem witness_BranchOnEquality : (opcodeOf 0x00208863#32 = opBRANCH ∧ funct3Of 0x00208863#32 = 0#3) ∧
    (opcodeOf 0x00209863#32 = opBRANCH ∧ funct3Of 0x00209863#32 = 1#3) ∧
    (machine [] [] 0#32).readReg 1#5 = (machine [] [] 0#32).readReg 2#5 ∧
    (machine [(1#5, 1#32)] [] 0#32).readReg 1#5 ≠ (machine [(1#5, 1#32)] [] 0#32).readReg 2#5 := by decide
theorem witness_BranchOnSignedOrder : (opcodeOf 0x0020C863#32 = opBRANCH ∧ funct3Of 0x0020C863#32 = 4#3) ∧
    (opcodeOf 0x0020D863#32 = opBRANCH ∧ funct3Of 0x0020D863#32 = 5#3) ∧
    ((machine [(1#5, 0x80000000#32)] [] 0#32).readReg 1#5).toInt < ((machine [] [] 0#32).readReg 2#5).toInt ∧
    ((machine [] [] 0#32).readReg 2#5).toInt ≤ ((machine [] [] 0#32).readReg 1#5).toInt := by decide
theorem witness_BranchOnUnsignedOrder : (opcodeOf 0x0020E863#32 = opBRANCH ∧ funct3Of 0x0020E863#32 = 6#3) ∧
    (opcodeOf 0x0020F863#32 = opBRANCH ∧ funct3Of 0x0020F863#32 = 7#3) ∧
    ((machine [] [] 0#32).readReg 1#5).toNat < ((machine [(2#5, 1#32)] [] 0#32).readReg 2#5).toNat ∧
    ((machine [] [] 0#32).readReg 2#5).toNat ≤ ((machine [] [] 0#32).readReg 1#5).toNat := by decide
/-- The last byte of memory. -/
theorem witness_ByteLoads : (opcodeOf 0x00808183#32 = opLOAD ∧ funct3Of 0x00808183#32 = 0#3) ∧
    (opcodeOf 0x0080C183#32 = opLOAD ∧ funct3Of 0x0080C183#32 = 4#3) ∧
    ((machine [(1#5, 0x20000#32)] [] 0#32).effAddr 1#5 0xFFF#12).toNat = 0x1FFFF ∧ 0x1FFFF + 1 ≤ State.reset.cfg.memSize := by
  decide
theorem witness_HalfwordLoads : (opcodeOf 0x00809183#32 = opLOAD ∧ funct3Of 0x00809183#32 = 1#3) ∧
    (opcodeOf 0x0080D183#32 = opLOAD ∧ funct3Of 0x0080D183#32 = 5#3) ∧
    ((machine [(1#5, 0x20000#32)] [] 0#32).effAddr 1#5 0xFFE#12).toNat = 0x1FFFE ∧ 0x1FFFE + 2 ≤ State.reset.cfg.memSize := by
  decide
theorem witness_WordLoad : opcodeOf 0x0080A183#32 = opLOAD ∧ funct3Of 0x0080A183#32 = 2#3 ∧
    ((machine [(1#5, 0x20000#32)] [] 0#32).effAddr 1#5 0xFFC#12).toNat = 0x1FFFC ∧ 0x1FFFC + 4 ≤ State.reset.cfg.memSize := by
  decide
theorem witness_StoresWriteTheLowBytes : (opcodeOf 0x00208423#32 = opSTORE ∧ funct3Of 0x00208423#32 = 0#3) ∧
    (opcodeOf 0x00209423#32 = opSTORE ∧ funct3Of 0x00209423#32 = 1#3) ∧
    (opcodeOf 0x0020A423#32 = opSTORE ∧ funct3Of 0x0020A423#32 = 2#3) ∧ State.reset.mem.wf ∧
    ((machine [(1#5, 0x20000#32)] [] 0#32).effAddr 1#5 0xFFC#12).toNat = 0x1FFFC ∧ 0x1FFFC + 4 ≤ State.reset.cfg.memSize ∧
    0x1FFFE + 2 ≤ State.reset.cfg.memSize ∧ 0x1FFFF + 1 ≤ State.reset.cfg.memSize := by decide
theorem witness_FencesAreFatal : (opcodeOf 0xFFFF8F8F#32 = opFENCE ∧ funct3Of 0xFFFF8F8F#32 = 0#3) ∧
    (opcodeOf 0x0000100F#32 = opFENCE ∧ funct3Of 0x0000100F#32 = 1#3) := by decide
/-- The zero word at the end of memory. -/
theorem witness_InvalidWordsAreFatal : (machine [] [] 0x1FFFC#32).pc.toNat + 4 ≤ State.reset.cfg.memSize ∧
    (decodeRecord (wordAt (machine [] [] 0x1FFFC#32) 0x1FFFC)).operation = .INVALID := by decide
theorem witness_MemoryOutOfBoundsExactly :
    (dataAccess (.lw 3#5 1#5 0#12) (machine [(1#5, 0x1FFFD#32)] [] 0x10#32) = some (.load, 0x1FFFD#32, 4) ∧
      State.reset.cfg.memSize < (0x1FFFD#32).toNat + 4) ∧
    (dataAccess (.sb 1#5 2#5 0#12) (machine [(1#5, 0x20000#32)] [] 0x10#32) = some (.store, 0x20000#32, 1) ∧
      State.reset.cfg.memSize < (0x20000#32).toNat + 1) ∧
    State.reset.cfg.memSize < (machine [] [] 0x1FFFD#32).pc.toNat + 4 := by decide
/-- Each of the four cases: fetch out of bounds, no case in the engine, access out of bounds, none of them. -/
theorem witness_FatalConditionsInOrder :
    State.reset.cfg.memSize < (machine [] [] 0x1FFFD#32).pc.toNat + 4 ∧
    ((machine [] [] 0x1FFFC#32).pc.toNat + 4 ≤ State.reset.cfg.memSize ∧
      (decodeRecord (wordAt (machine [] [] 0x1FFFC#32) 0x1FFFC)).operation = .INVALID) ∧
    (decode (wordAt ((machine [(1#5, 0x1FFFD#32)] [] 0#32).withFetchWord 32 0x0000A183) 0) = .ok (.lw 3#5 1#5 0#12) ∧
      dataAccess (.lw 3#5 1#5 0#12) ((machine [(1#5, 0x1FFFD#32)] [] 0#32).withFetchWord 32 0x0000A183) =
        some (.load, 0x1FFFD#32, 4) ∧ State.reset.cfg.memSize < (0x1FFFD#32).toNat + 4) ∧
    (decode (wordAt ((machine [(1#5, 0x1FFFC#32)] [] 0#32).withFetchWord 32 0x0000A183) 0) = .ok (.lw 3#5 1#5 0#12) ∧
      dataAccess (.lw 3#5 1#5 0#12) ((machine [(1#5, 0x1FFFC#32)] [] 0#32).withFetchWord 32 0x0000A183) =
        some (.load, 0x1FFFC#32, 4) ∧ (0x1FFFC#32).toNat + 4 ≤ State.reset.cfg.memSize) := by decide
theorem witness_StepRunsTheDecodedInstruction :
    let s := (machine [] [] 0x1FFFC#32).withFetchWord 32 0x00150513
    s.pc.toNat + 4 ≤ s.cfg.memSize ∧ decode (wordOfBytes (s.mem.readByte s.pc.toNat) (s.mem.readByte (s.pc.toNat + 1))
      (s.mem.readByte (s.pc.toNat + 2)) (s.mem.readByte (s.pc.toNat + 3))) = .ok (.addi 10#5 10#5 1#12) := by decide
/-- The smallest memory that holds the nop. -/
theorem witness_NopScenario :
    4 ≤ (⟨4, 0#32, .next⟩ : Config).memSize ∧ (⟨4, 0#32, .next⟩ : Config).entryPc = 0#32 := by
  decide
/-- A jump, an indirect jump, a branch taken, a branch not taken, and an instruction that falls through. -/
theorem witness_HowThePcAdvances :
    (∃ t, exec (.jal 1#5 0x1FFFF0#21) (machine [] [] 8#32) = .next t ∧ (t.pc == 0xFFFFFFF8#32) = true) ∧
    (∃ t, exec (.jalr 0#3 1#5 5#5 1#12) (machine [(5#5, 0xFFFFFFFF#32)] [] 0x40#32) = .next t ∧ (t.pc == 0#32) = true) ∧
    (∃ t, exec (.beq 0#5 0#5 0x1FF8#13) (machine [] [] 4#32) = .next t ∧ (t.pc == 0xFFFFFFFC#32) = true) ∧
    (∃ t, exec (.bltu 1#5 0#5 0x1FFC#13) (machine [(1#5, 9#32)] [] 0x10#32) = .next t ∧ (t.pc == 0x14#32) = true) ∧
    ∃ t, exec (.addi 0#5 0#5 0#12) (machine [] [] 0xFFFFFFFC#32) = .next t ∧ (t.pc == 0#32) = true :=
  ⟨exists_next (p := fun t => t.pc == 0xFFFFFFF8#32) (by decide), exists_next (p := fun t => t.pc == 0#32) (by decide),
    exists_next (p := fun t => t.pc == 0xFFFFFFFC#32) (by decide), exists_next (p := fun t => t.pc == 0x14#32) (by decide),
    exists_next (p := fun t => t.pc == 0#32) (by decide)⟩
/-- SW at the end of memory: its last byte changes. -/
theorem witness_OnlyStoresChangeMemory :
    let s := (machine [(1#5, 0x1FFFC#32), (2#5, 0x11223344#32)] [] 0#32).withFetchWord 32 0x0020A023
    ∃ t, step s = .next t ∧ (t.mem.readByte 0x1FFFF != s.mem.readByte 0x1FFFF) = true :=
  exists_next (p := fun t => t.mem.readByte 0x1FFFF !=
    ((machine [(1#5, 0x1FFFC#32), (2#5, 0x11223344#32)] [] 0#32).withFetchWord 32 0x0020A023).mem.readByte 0x1FFFF)
    (by decide)
theorem witness_OnlyRdChanges :
    let s := (machine [] [] 0#32).withFetchWord 32 0x00150513
    ∃ t, step s = .next t ∧ (t.readReg 10#5 != s.readReg 10#5) = true :=
  exists_next (p := fun t => t.readReg 10#5 != ((machine [] [] 0#32).withFetchWord 32 0x00150513).readReg 10#5)
    (by decide)
theorem witness_ParametersNeverChange : ∃ t, cycle 0x00150513 (machine [] [] 0#32) = .next t ∧ (t.pc == 4#32) = true :=
  exists_next (p := fun t => t.pc == 4#32) (by decide)
/-- The smallest and the largest capacity are accepted, the values beside them refused. -/
theorem witness_CreationEstablishesTheInvariant :
    (∃ s, hostCreate ⟨1, 0#32, .own⟩ = some s) ∧ (∃ s, hostCreate ⟨2 ^ 32, 0#32, .next⟩ = some s) ∧
    hostCreate ⟨0, 0#32, .own⟩ = none ∧ hostCreate ⟨2 ^ 32 + 1, 0#32, .own⟩ = none :=
  ⟨⟨_, if_pos (by decide)⟩, ⟨_, if_pos (by decide)⟩, if_neg (by decide), if_neg (by decide)⟩
/-- A store from a state with the invariant. -/
theorem witness_StepKeepsTheInvariant :
    let s := (machine [(1#5, 0x1FFFC#32), (2#5, 0x11223344#32)] [] 0#32).withFetchWord 32 0x0020A023
    s.Inv ∧ ∃ t, step s = .next t ∧ (t.mem.readByte 0x1FFFC == 0x44#8) = true :=
  ⟨by decide, exists_next (p := fun t => t.mem.readByte 0x1FFFC == 0x44#8) (by decide)⟩
/-- SW x5,4(x0) at 0 stores over the next instruction, which then is ADDI x10,x10,1. -/
theorem witness_StoreIsSeenByTheNextFetch :
    let s := machine [(5#5, 0x00150513#32)] [] 0#32
    s.mem.wf ∧ s.effAddr 0#5 4#12 = s.pc + 4#32 ∧ decode (s.readReg 5#5) = .ok (.addi 10#5 10#5 1#12) ∧
      ∃ t, exec (.sw 0#5 5#5 4#12) s = .next t ∧ (t.pc == 4#32) = true :=
  ⟨by decide, by decide, by decide, exists_next (p := fun t => t.pc == 4#32) (by decide)⟩
/-- Two words that just fit, two of which the second does not, and two that meet the top of the address space. -/
theorem witness_LoadedWordsAreFetched : State.reset.Inv ∧
    0x1FFF8 + 4 * [0x13#32, 0x6F#32].length ≤ State.reset.cfg.memSize ∧
    ([0x13#32, 0x6F#32] ≠ [] ∧ State.reset.cfg.memSize < 0x1FFFC + 4 * [0x13#32, 0x6F#32].length ∧
      0x1FFFC + 4 * ((State.reset.cfg.memSize - 0x1FFFC) / 4) = 0x20000) ∧
    (State.created ⟨2 ^ 32, 0#32, .own⟩).Inv ∧ 2 ^ 32 < 0xFFFFFFFC + 4 * [0x13#32, 0x6F#32].length := by decide
/-- The zero word, a fetch past memory and a load past memory, each met by a run at once; and after one nop a run meets the
zero word at 4, and ends successfully at the bound 4 before it (R275, R277). -/
theorem witness_FatalConditionsEndTheRun :
    (core.run 0 State.reset = .next State.reset ∧ (0#32).toNat + 4 ≤ State.reset.cfg.memSize ∧
      (decodeRecord (wordAt State.reset 0)).operation = .INVALID) ∧
    (machine [] [] 0x1FFFD#32).cfg.memSize < (machine [] [] 0x1FFFD#32).pc.toNat + 4 ∧
    (decode 0x0000A283#32 = .ok (.lw 5#5 1#5 0#12) ∧
      dataAccess (.lw 5#5 1#5 0#12) (machine [(1#5, 0x1FFFD#32)] [] 0#32) = some (.load, 0x1FFFD#32, 4) ∧
      (machine [(1#5, 0x1FFFD#32)] [] 0#32).cfg.memSize < (0x1FFFD#32).toNat + 4) ∧
    ∃ t, EndsAt 4#32 ((machine [] [] 0#32).withFetchWord 32 0x00000013) t ∧ wordAt t 4 = 0#32 := by
  refine ⟨⟨rfl, by decide, by decide⟩, by decide, ⟨by decide, by decide, by decide⟩, ?_⟩
  obtain ⟨t, h, hp⟩ := exists_next (o := step ((machine [] [] 0#32).withFetchWord 32 0x00000013))
    (p := fun t => t.pc == 4#32 && wordAt t 4 == 0#32) (by decide)
  rw [Bool.and_eq_true] at hp
  have hr : core.step ((machine [] [] 0#32).withFetchWord 32 0x00000013) = .next t := h
  refine ⟨t, ⟨1, core_run_next hr 0, eq_of_beq hp.1, fun j u hj hu => ?_⟩, eq_of_beq hp.2⟩
  obtain rfl : j = 0 := by omega
  cases hu
  decide

end Sys2Proof.Tests
end

section
/-! PROOFS. The statements of 00_scope.md: how a field is extended (R15), what the creation state is and when creation
answers it (R10 to R12), and that no cycle changes the parameters. -/

namespace Sys2Proof

open Sys2Proof.Claims

/-! ### The reading of a field and of its extensions (R15) -/

/-- The signed reading of R15 is the two's-complement value, at every width. -/
theorem signedField_eq_toInt {n : Nat} (v : BitVec n) : signedField v = v.toInt := by
  cases n with
  | zero => rw [BitVec.of_length_zero (x := v)]; rfl
  | succ k =>
    have top_bit_clear_iff : v.toNat < 2 ^ k ↔ 2 * v.toNat < 2 ^ (k + 1) := by rw [Nat.pow_succ]; omega
    simp [signedField, BitVec.toInt_eq_toNat_cond, top_bit_clear_iff]

/-- Sign extension keeps the signed reading of a field of at most 32 bits. -/
theorem toInt_sext {n : Nat} (v : BitVec n) (h : n ≤ 32) : (sext v).toInt = signedField v := by
  rw [signedField_eq_toInt]
  exact BitVec.toInt_signExtend_of_le h

/-- Zero extension keeps the number of a field of at most 32 bits. -/
theorem toNat_zext {n : Nat} (v : BitVec n) (h : n ≤ 32) : (zext v).toNat = v.toNat :=
  BitVec.toNat_setWidth_of_le h

/-- Settles O2: each extension keeps its own reading of the field. -/
theorem extensionKeepsTheFieldsReading : Obligations.ExtensionKeepsTheFieldsReading :=
  fun _ v _ hn => ⟨toInt_sext v hn, toNat_zext v hn⟩

end Sys2Proof

namespace Sys2Proof.Machine

variable {s t : State} {cfg : Config}

/-! ### The parameters along a cycle -/

/-- No instruction changes the parameters: a register write, a new pc and a store each keep `cfg`. -/
theorem exec_next_cfg {i : Instr} (h : exec i s = .next t) : t.cfg = s.cfg := by
  obtain ⟨rd, v, target, rfl⟩ | ⟨a, w, v, -, rfl⟩ := exec_next_cases h
  · rw [setPc_cfg, writeReg_cfg]
  · rw [advance_cfg, setMem_cfg]

/-- Settles O52: a completed cycle is a fetch, a decode and an `exec`, and only the last makes a state. -/
theorem parametersNeverChange : Obligations.ParametersNeverChange := by
  intro s t h
  obtain ⟨-, i, -, -, hexec⟩ := step_next_cases h
  exact exec_next_cfg hexec

/-! ### The creation state -/

/-- Every register of a created state reads 0 (R23). -/
@[simp] theorem readReg_created (r : RegIdx) : (State.created cfg).readReg r = 0#32 := by
  unfold State.readReg
  split
  · rfl
  · exact Vector.getElem_replicate r.isLt

/-- A created state has the invariant where R10 allows its configuration: its memory lists no cell, its slot 0 is 0. -/
theorem created_inv (h : cfg.wf) : (State.created cfg).Inv :=
  ⟨h, ⟨.nil, List.forall_mem_nil _⟩, List.forall_mem_nil _, rfl⟩

/-- Creation answers the creation state, for exactly the configurations R10 allows (U12). -/
theorem hostCreate_eq_some_iff : hostCreate cfg = some s ↔ cfg.wf ∧ s = State.created cfg := by
  unfold hostCreate
  split_ifs with h
  · rw [Option.some_inj, eq_comm, and_iff_right h]
  · simp [h]

/-- The default parameters are ones R10 allows. -/
theorem default_wf : Config.default.wf := by decide

/-- Settles O13: reset is the creation state of the default parameters. -/
theorem resetUsesTheDefaultParameters : Obligations.ResetUsesTheDefaultParameters :=
  ⟨rfl, rfl, rfl, rfl, rfl, fun r => readReg_created r⟩

/-- Settles O53: both clauses about creation are read off `hostCreate_eq_some_iff`. -/
theorem creationEstablishesTheInvariant : Obligations.CreationEstablishesTheInvariant := by
  refine ⟨fun cfg => ⟨?_, fun hwf => ?_⟩, fun cfg s h => ?_, created_inv default_wf⟩
  · rintro ⟨s, h⟩
    exact (hostCreate_eq_some_iff.1 h).1
  · exact ⟨State.created cfg, hostCreate_eq_some_iff.2 ⟨hwf, rfl⟩⟩
  · obtain ⟨hwf, rfl⟩ := hostCreate_eq_some_iff.1 h
    exact ⟨rfl, created_inv hwf⟩

end Sys2Proof.Machine
end

section
/-! PROOFS. The statements of 10_state.md: register 0 (R22), how each instruction advances the pc (R27), which register a
cycle can change (R21, R22), and the invariant of the state (R21, R22, R28, R31). -/

open Sys2Proof.Claims

namespace Sys2Proof.Machine

variable {s t : State} {i : Instr} {raw : Word}

/-! ### The invariant -/

/-- The invariant requires nothing of the pc (R28). -/
theorem setPc_inv (hs : s.Inv) (target : Word) : (s.setPc target).Inv := hs

/-- A register write keeps the invariant: it never reaches slot 0. -/
theorem writeReg_inv (hs : s.Inv) (rd : RegIdx) (v : Word) : (s.writeReg rd v).Inv := by
  obtain ⟨hcfg, hwf, hwithin, hzero⟩ := hs
  refine ⟨?_, ?_, ?_, ?_⟩
  · rwa [writeReg_cfg]
  · rwa [writeReg_mem]
  · rwa [writeReg_mem, writeReg_cfg]
  · rwa [writeReg_slot_zero]

/-- A store in bounds keeps the invariant: its cells stay canonical and below `MEM_SIZE`. -/
theorem setMem_writeLE_inv (hs : s.Inv) {a n : Nat} (v : Word) (ha : a + n ≤ s.cfg.memSize) :
    (s.setMem (s.mem.writeLE a n v)).Inv := by
  obtain ⟨hcfg, hwf, hwithin, hzero⟩ := hs
  exact ⟨hcfg, writeLE_wf n s.mem a v hwf, writeLE_within s.cfg.memSize n s.mem a v hwithin ha, hzero⟩

/-- No instruction breaks the invariant. -/
theorem exec_next_inv (hs : s.Inv) (h : exec i s = .next t) : t.Inv := by
  obtain ⟨rd, v, target, rfl⟩ | ⟨a, w, v, ha, rfl⟩ := exec_next_cases h
  · exact setPc_inv (writeReg_inv hs rd v) target
  · exact setPc_inv (setMem_writeLE_inv hs v ha) _

/-- Settles O54: a completed cycle ends in an `exec`, which keeps the invariant. -/
theorem stepKeepsTheInvariant : Obligations.StepKeepsTheInvariant := by
  intro s t hs h
  obtain ⟨-, i, -, -, hexec⟩ := step_next_cases h
  exact exec_next_inv hs hexec

/-! ### Register 0 -/

/-- A load raises its out-of-bounds condition and no other, whatever its destination. -/
theorem load_eq_fault_iff {rd : RegIdx} {a : Word} {w : Width} {ext : Word → Word} {f : Fault} :
    s.load rd a w ext = .fault f ↔
      s.cfg.memSize < a.toNat + w.bytes ∧ f = .memoryOutOfBounds .load a w.bytes s.pc := by
  rw [load_eq]
  split_ifs with h
  · simp [Nat.not_lt.2 h]
  · simp [Nat.lt_of_not_le h, eq_comm]

/-- What a load raises does not depend on where its value goes. -/
theorem load_fault_any_rd (rd rd' : RegIdx) (a : Word) (w : Width) (ext : Word → Word) (f : Fault) :
    s.load rd a w ext = .fault f ↔ s.load rd' a w ext = .fault f :=
  load_eq_fault_iff.trans load_eq_fault_iff.symm

/-- Settles O14: the register file's laws for register 0, and `load_fault_any_rd` for each of the five loads. -/
theorem registerZeroDiscardsWrites : Obligations.RegisterZeroDiscardsWrites := by
  refine ⟨fun s v => ⟨writeReg_zero s v, readReg_zero s⟩, fun s r v => readReg_writeReg_same s r v,
    fun s r q v => readReg_writeReg_other s r q v, fun s rd rs1 imm f => ?_⟩
  have same_fault (w : Width) (ext : Word → Word) := load_fault_any_rd (s := s) 0#5 rd (s.effAddr rs1 imm) w ext f
  exact ⟨same_fault .byte extByte, same_fault .half extHalf, same_fault .word extWord, same_fault .byte extByteU,
    same_fault .half extHalfU⟩

/-! ### Which register a cycle can change -/

/-- A fetch that succeeds answers the word at the pc. -/
theorem fetch_eq_ok_iff : s.fetch = .ok raw ↔ s.pc.toNat + 4 ≤ s.cfg.memSize ∧ wordAt s s.pc.toNat = raw := by
  rw [fetch_eq]
  split_ifs with h
  · simp [h, wordAt]
  · simp [h]

/-- A completed cycle is the `exec` of the instruction whose word is at the pc. -/
theorem step_next_exec (h : step s = .next t) : ∃ i, decode (wordAt s s.pc.toNat) = .ok i ∧ exec i s = .next t := by
  obtain ⟨raw, i, hfetch, hdecode, hexec⟩ := step_next_cases h
  obtain ⟨-, rfl⟩ := fetch_eq_ok_iff.1 hfetch
  exact ⟨i, hdecode, hexec⟩

/-- The record of a word that decodes. -/
theorem decodeRecord_of_decode (h : decode raw = .ok i) : decodeRecord raw = i.toRecord := by
  unfold decodeRecord
  rw [h]

section registers

variable {rd r : RegIdx} {a v target : Word} {w : Width} {taken : Bool} {ext : Word → Word}

theorem finish_next_readReg (h : s.finish rd v = .next t) (hr : r ≠ rd) : t.readReg r = s.readReg r := by
  cases h
  rw [readReg_advance, readReg_writeReg_other s rd r v hr]

theorem jump_next_readReg (h : s.jump rd target = .next t) (hr : r ≠ rd) : t.readReg r = s.readReg r := by
  cases h
  rw [readReg_setPc, readReg_writeReg_other s rd r _ hr]

theorem load_next_readReg (h : s.load rd a w ext = .next t) (hr : r ≠ rd) : t.readReg r = s.readReg r := by
  rw [load_eq] at h
  split_ifs at h
  exact finish_next_readReg h hr

theorem branch_next_readReg (h : s.branch taken target = .next t) : t.readReg r = s.readReg r := by
  rw [branch_eq] at h
  cases h
  rw [readReg_setPc]

theorem store_next_readReg (h : s.store a w v = .next t) : t.readReg r = s.readReg r := by
  rw [store_eq] at h
  split_ifs at h
  cases h
  rw [readReg_advance, readReg_setMem]

/-- An instruction leaves every register alone but the one its record names as `rd` (R126). -/
theorem exec_next_readReg_of_ne_rd (h : exec i s = .next t) (hr : i.toRecord.rd ≠ some r) :
    t.readReg r = s.readReg r := by
  have ne_of_rd {q : RegIdx} (hq : i.toRecord.rd = some q) : r ≠ q := fun e => hr (e ▸ hq)
  cases i with
  | lui | auipc | addi | slti | sltiu | xori | ori | andi | slli | srli | srai | add | sub | sll | slt | sltu | xor
  | srl | sra | or | and => exact finish_next_readReg h (ne_of_rd rfl)
  | jal | jalr => exact jump_next_readReg h (ne_of_rd rfl)
  | lb | lh | lw | lbu | lhu => exact load_next_readReg h (ne_of_rd rfl)
  | beq | bne | blt | bge | bltu | bgeu => exact branch_next_readReg h
  | sb | sh | sw => exact store_next_readReg h
  | fence | fencei => cases h

end registers

/-- Settles O51: the decoded record is the executed instruction's, and register 0 reads 0 before and after. -/
theorem onlyRdChanges : Obligations.OnlyRdChanges := by
  intro s t r h hchanged
  obtain ⟨i, hdecode, hexec⟩ := step_next_exec h
  constructor
  · rw [decodeRecord_of_decode hdecode]
    by_contra hr
    exact hchanged (exec_next_readReg_of_ne_rd hexec hr)
  · rintro rfl
    exact hchanged (by rw [readReg_zero, readReg_zero])

/-! ### How the pc advances -/

/-- A word plus a sign-extended field is the sum of their readings modulo 2^32 (R51, R80, R140). -/
theorem toNat_add_sext (a : Word) {n : Nat} (imm : BitVec n) (hn : n ≤ 32) :
    ((a + sext imm).toNat : Int) = (a.toNat + signedField imm) % 2 ^ 32 := by
  rw [← toInt_sext imm hn, BitVec.toNat_add, BitVec.toInt_eq_toNat_cond]
  split <;> omega

/-- The base of pc-relative offsets is `ipc + PCREL_ADJ` modulo 2^32 (R12, R140). -/
theorem toNat_base (s : State) : (s.base.toNat : Int) = (s.pc.toNat + adj s) % 2 ^ 32 := by
  unfold State.base adj
  cases s.cfg.pcrelBase with
  | own => simp only [pcrelAdj, BitVec.add_zero]; omega
  | next => simp [pcrelAdj]

/-- The target of JAL and of a taken branch, in integers. -/
theorem pcIs_of_relTarget {n : Nat} {imm : BitVec n} (hn : n ≤ 32) (h : t.pc = s.relTarget imm) :
    PcIs t (s.pc.toNat + adj s + signedField imm) := by
  rw [PcIs, h, State.relTarget, toNat_add_sext s.base imm hn, toNat_base, Int.emod_add_emod]

/-- The mask of JALR's target clears bit 0. -/
theorem and_clear_bit_zero (x : Word) : x &&& 0xFFFFFFFE#32 = (x >>> 1) <<< 1 := by
  rw [BitVec.shiftLeft_ushiftRight]
  rfl

/-- JALR's target, in integers. -/
theorem toNat_pc_of_jalrTarget {rs1 : RegIdx} {imm : BitVec 12} (h : t.pc = s.jalrTarget rs1 imm) :
    (t.pc.toNat : Int) = ((s.readReg rs1).toNat + signedField imm) % 2 ^ 32 / 2 * 2 := by
  rw [h, ← toNat_add_sext (s.readReg rs1) imm (by decide), State.jalrTarget, and_clear_bit_zero, BitVec.toNat_shiftLeft,
    BitVec.toNat_ushiftRight, Nat.shiftLeft_eq, Nat.shiftRight_eq_div_pow]
  omega

/-- The default advance falls through, in integers. -/
theorem fallsThrough_of_pc (h : t.pc = s.pc + 4#32) : FallsThrough s t := by
  simp [FallsThrough, PcIs, h]

section advance

variable {rd : RegIdx} {a v target : Word} {w : Width} {taken : Bool} {ext : Word → Word} {holds : Prop}

theorem finish_next_fallsThrough (h : s.finish rd v = .next t) : FallsThrough s t := by
  cases h
  exact fallsThrough_of_pc (by rw [advance_pc, writeReg_pc])

theorem load_next_fallsThrough (h : s.load rd a w ext = .next t) : FallsThrough s t := by
  rw [load_eq] at h
  split_ifs at h
  exact finish_next_fallsThrough h

theorem store_next_fallsThrough (h : s.store a w v = .next t) : FallsThrough s t := by
  rw [store_eq] at h
  split_ifs at h
  cases h
  exact fallsThrough_of_pc rfl

theorem jump_next_pc (h : s.jump rd target = .next t) : t.pc = target := by
  cases h
  rfl

/-- A branch goes to its target exactly if the relation it tests holds (R143). -/
theorem branch_next_pc {imm : BitVec 13} (h : s.branch taken (s.relTarget imm) = .next t)
    (htaken : taken = true ↔ holds) :
    (holds → PcIs t (s.pc.toNat + adj s + signedField imm)) ∧ (¬holds → FallsThrough s t) := by
  rw [branch_eq] at h
  cases h
  constructor
  · intro hc
    exact pcIs_of_relTarget (by decide) (if_pos (htaken.2 hc))
  · intro hc
    exact fallsThrough_of_pc (if_neg (mt htaken.1 hc))

end advance

/-- BNE's test. -/
theorem not_condEq_iff (a b : Word) : (!condEq a b) = true ↔ a ≠ b := by
  rw [Bool.not_eq_true', ← Bool.not_eq_true, condEq_iff]

/-- BGE's test. -/
theorem not_condLt_iff (a b : Word) : (!condLt a b) = true ↔ b.toInt ≤ a.toInt := by
  rw [Bool.not_eq_true', ← Bool.not_eq_true, condLt_iff, not_lt]

/-- BGEU's test. -/
theorem not_condLtu_iff (a b : Word) : (!condLtu a b) = true ↔ b.toNat ≤ a.toNat := by
  rw [Bool.not_eq_true', ← Bool.not_eq_true, condLtu_iff, not_lt]

/-- A conditional branch advances the pc as `branchOf` says (R143 to R149). -/
theorem exec_branch_next_pc {taken : Prop} {offset : Int} (h : exec i s = .next t)
    (hb : branchOf i s = some (taken, offset)) :
    (taken → PcIs t (s.pc.toNat + adj s + offset)) ∧ (¬taken → FallsThrough s t) := by
  cases i with
  | beq => cases hb; exact branch_next_pc h (condEq_iff _ _)
  | bne => cases hb; exact branch_next_pc h (not_condEq_iff _ _)
  | blt => cases hb; exact branch_next_pc h (condLt_iff _ _)
  | bge => cases hb; exact branch_next_pc h (not_condLt_iff _ _)
  | bltu => cases hb; exact branch_next_pc h (condLtu_iff _ _)
  | bgeu => cases hb; exact branch_next_pc h (not_condLtu_iff _ _)
  | _ => cases hb

/-- Settles O49: a jump goes to its target, a branch as `exec_branch_next_pc` says, and every other shape of instruction
ends in the default advance. -/
theorem howThePcAdvances : Obligations.HowThePcAdvances := by
  intro i s t h
  cases i with
  | jal => exact pcIs_of_relTarget (by decide) (jump_next_pc h)
  | jalr => exact toNat_pc_of_jalrTarget (jump_next_pc h)
  | beq | bne | blt | bge | bltu | bgeu => exact ⟨nofun, fun _ _ => exec_branch_next_pc h⟩
  | lui | auipc | addi | slti | sltiu | xori | ori | andi | slli | srli | srai | add | sub | sll | slt | sltu | xor
  | srl | sra | or | and => exact ⟨fun _ => finish_next_fallsThrough h, nofun⟩
  | lb | lh | lw | lbu | lhu => exact ⟨fun _ => load_next_fallsThrough h, nofun⟩
  | sb | sh | sw => exact ⟨fun _ => store_next_fallsThrough h, nofun⟩
  | fence | fencei => cases h

end Sys2Proof.Machine
end

section
/-! PROOFS. The statements of 20_memory.md: the bounds test (R46), what a read answers (R44), what a write changes (R45),
what reads of any width see of a word written (R42, R61), effective addresses (R51), and the whole machine's side of these:
only a store changes memory, and the fetch sees it (R48, R49, R59). -/

open Sys2Proof.Claims

namespace Sys2Proof.Machine

variable {s t : State} {i : Instr} {raw a v x : Word} {w : Width} {kind : AccessKind}

/-! ### The bounds test (R46) -/

/-- A read that answers is in bounds and answers the little-endian value. -/
theorem memRead_eq_ok_iff :
    s.memRead kind a w = .ok x ↔ a.toNat + w.bytes ≤ s.cfg.memSize ∧ s.mem.readLE a.toNat w.bytes = x := by
  by_cases h : a.toNat + w.bytes ≤ s.cfg.memSize
  · simp [memRead_ok kind a w h, h]
  · simp [memRead_error kind a w (Nat.lt_of_not_le h), h]

/-- A write that answers is in bounds and answers the state with its bytes stored. -/
theorem memWrite_eq_ok_iff : s.memWrite a w v = .ok t ↔
    a.toNat + w.bytes ≤ s.cfg.memSize ∧ s.setMem (s.mem.writeLE a.toNat w.bytes v) = t := by
  by_cases h : a.toNat + w.bytes ≤ s.cfg.memSize
  · simp [memWrite_ok a w v h, h]
  · simp [memWrite_error a w v (Nat.lt_of_not_le h), h]

/-- Settles O16: an access that answers is in bounds, and the two cases of the bounds test. -/
theorem boundsTestIsUnbounded : Obligations.BoundsTestIsUnbounded := by
  intro s kind a w v
  refine ⟨⟨?_, fun h => ⟨_, memRead_ok kind a w h⟩⟩, ⟨?_, fun h => ⟨_, memWrite_ok a w v h⟩⟩,
    fun h => ⟨memRead_error kind a w h, memWrite_error a w v h⟩⟩
  · rintro ⟨x, h⟩
    exact (memRead_eq_ok_iff.1 h).1
  · rintro ⟨t, h⟩
    exact (memWrite_eq_ok_iff.1 h).1

/-! ### What a read answers (R44) -/

/-- The little-endian value, split at its low end as the model reads it. -/
theorem valueAt_succ_low (m : Memory) (a n : Nat) :
    valueAt m a (n + 1) = (m.readByte a).toNat + valueAt m (a + 1) n * 2 ^ 8 := by
  induction n with
  | zero => simp [valueAt]
  | succ n ih =>
    have hweight : 2 ^ (8 * (n + 1)) = 2 ^ (8 * n) * 2 ^ 8 := by rw [← Nat.pow_add]; rfl
    have haddr : a + (n + 1) = a + 1 + n := by omega
    rw [valueAt, ih, valueAt, hweight, haddr, Nat.add_mul, Nat.mul_assoc, Nat.add_assoc]

/-- `n` bytes have a value below `2^(8n)`. -/
theorem valueAt_lt (m : Memory) (a n : Nat) : valueAt m a n < 2 ^ (8 * n) := by
  induction n with
  | zero => exact Nat.one_pos
  | succ n ih =>
    have hbyte : (m.readByte (a + n)).toNat + 1 ≤ 2 ^ 8 := (m.readByte (a + n)).isLt
    calc valueAt m a (n + 1)
      _ < 2 ^ (8 * n) + (m.readByte (a + n)).toNat * 2 ^ (8 * n) := Nat.add_lt_add_right ih _
      _ = ((m.readByte (a + n)).toNat + 1) * 2 ^ (8 * n) := by ring
      _ ≤ 2 ^ 8 * 2 ^ (8 * n) := Nat.mul_le_mul_right _ hbyte
      _ = 2 ^ (8 * (n + 1)) := by ring

/-- A byte below a value shifted up by one byte: nothing overlaps and nothing is lost. -/
theorem toNat_zext_or_shift (b : Byte) (x : Word) (hx : x.toNat < 2 ^ 24) :
    (zext b ||| x <<< 8).toNat = b.toNat + x.toNat * 2 ^ 8 := by
  have hfits : x.toNat <<< 8 % 2 ^ 32 = x.toNat <<< 8 := Nat.mod_eq_of_lt (by rw [Nat.shiftLeft_eq]; omega)
  rw [BitVec.toNat_or, BitVec.toNat_shiftLeft, hfits, toNat_zext b (by decide), Nat.or_comm,
    ← Nat.shiftLeft_add_eq_or_of_lt b.isLt, Nat.shiftLeft_eq, Nat.add_comm]

/-- What a read of at most four bytes answers, as a number. -/
theorem toNat_readLE (m : Memory) (a n : Nat) (hn : n ≤ 4) : (m.readLE a n).toNat = valueAt m a n := by
  induction n generalizing a with
  | zero => rfl
  | succ n ih =>
    have hrest := ih (a + 1) (by omega)
    have hlt : (m.readLE (a + 1) n).toNat < 2 ^ 24 :=
      hrest ▸ (valueAt_lt m (a + 1) n).trans_le (Nat.pow_le_pow_right (by decide) (by omega))
    rw [Memory.readLE, toNat_zext_or_shift _ _ hlt, hrest, valueAt_succ_low]

/-- No access is wider than a word (R43). -/
theorem Width.bytes_le_four (w : Width) : w.bytes ≤ 4 := by cases w <;> decide

/-- Settles O17: the little-endian value as a number, and the condition out of bounds. -/
theorem memReadIsTheLittleEndianSum : Obligations.MemReadIsTheLittleEndianSum := by
  intro s kind a w
  refine ⟨fun h => ?_, fun h => ⟨_, _, _, _, memRead_error kind a w h⟩⟩
  have hvalue := toNat_readLE s.mem a.toNat w.bytes w.bytes_le_four
  exact ⟨_, memRead_ok kind a w h, hvalue, hvalue ▸ valueAt_lt s.mem a.toNat w.bytes⟩

/-! ### What a write changes (R45) -/

/-- Byte `k` of the value written stands at `a + k`; memory in canonical form. -/
theorem memWrite_readByte (hm : s.mem.wf) (h : s.memWrite a w v = .ok t) {k : Nat} (hk : k < w.bytes) :
    t.mem.readByte (a.toNat + k) = v.extractLsb' (8 * k) 8 := by
  obtain ⟨-, rfl⟩ := memWrite_eq_ok_iff.1 h
  exact readByte_writeLE_inside w.bytes s.mem a.toNat k v hm hk

/-- Settles O18: the bytes of the value land inside the access, and a write is a change of memory alone. -/
theorem memWriteSetsOnlyItsBytes : Obligations.MemWriteSetsOnlyItsBytes := by
  intro s a w v
  refine ⟨fun h => ⟨_, _, _, _, memWrite_error a w v h⟩, fun h => ⟨_, memWrite_ok a w v h, ?_, ?_, rfl, ?_, rfl⟩⟩
  · exact fun hm k hk => memWrite_readByte hm (memWrite_ok a w v h) hk
  · exact fun b hb => readByte_writeLE_outside w.bytes s.mem a.toNat b v hb
  · exact fun r => readReg_setMem s r _

/-! ### Reads inside a word just written (R42, R61) -/

/-- A read answers the slice of a value whose bytes memory holds in little-endian order. -/
theorem readLE_eq_slice (m : Memory) (v : Word) (n a k : Nat)
    (h : ∀ j < n, m.readByte (a + j) = v.extractLsb' (8 * (k + j)) 8) :
    m.readLE a n = zext (v.extractLsb' (8 * k) (8 * n)) := by
  induction n generalizing a k with
  | zero => simp [Memory.readLE, zext]
  | succ n ih =>
    have hlow : m.readByte a = v.extractLsb' (8 * k) 8 := h 0 (Nat.succ_pos n)
    have hrest : m.readLE (a + 1) n = zext (v.extractLsb' (8 * (k + 1)) (8 * n)) := by
      refine ih (a + 1) (k + 1) fun j hj => ?_
      rw [Nat.add_assoc, Nat.add_assoc, Nat.add_comm 1]
      exact h (j + 1) (Nat.succ_lt_succ hj)
    rw [Memory.readLE, hlow, hrest, zext_or_shift, BitVec.extractLsb'_append_extractLsb'_eq_extractLsb' (by omega)]
    rfl

/-- An address that does not pass the top of the address space. -/
theorem toNat_add_ofNat {k : Nat} (h : a.toNat + k < 2 ^ 32) : (a + BitVec.ofNat 32 k).toNat = a.toNat + k := by
  rw [BitVec.toNat_add, BitVec.toNat_ofNat]
  omega

/-- After a word is written, a read of any width that lies inside it answers its slice of the value. -/
theorem memRead_inside_word_written (kind : AccessKind) (w : Width) (k : Nat) (hs : s.Inv)
    (h : s.memWrite a .word v = .ok t) (hk : k + w.bytes ≤ 4) :
    t.memRead kind (a + BitVec.ofNat 32 k) w = .ok (zext (v.extractLsb' (8 * k) (8 * w.bytes))) := by
  obtain ⟨⟨-, hsize⟩, hwf, -, -⟩ := hs
  obtain ⟨hbound, ht⟩ := memWrite_eq_ok_iff.1 h
  have hcfg : t.cfg = s.cfg := ht ▸ rfl
  have hwidth : 0 < w.bytes := by cases w <;> decide
  rw [bytes_word] at hbound
  have haddr : (a + BitVec.ofNat 32 k).toNat = a.toNat + k := toNat_add_ofNat (by omega)
  refine memRead_eq_ok_iff.2 ⟨by rw [haddr, hcfg]; omega, ?_⟩
  rw [haddr]
  refine readLE_eq_slice t.mem v w.bytes _ k fun j hj => ?_
  rw [Nat.add_assoc]
  exact memWrite_readByte hwf h (Nat.lt_of_lt_of_le (Nat.add_lt_add_left hj k) hk)

/-- Settles O19: `memRead_inside_word_written` at each byte and at both halfwords. -/
theorem mixedWidthReadsSeeTheBytes : Obligations.MixedWidthReadsSeeTheBytes := by
  intro s t kind a v hs h
  have read (w : Width) (k : Nat) (hk : k + w.bytes ≤ 4) := memRead_inside_word_written kind w k hs h hk
  have half_low := read .half 0 (by decide)
  rw [BitVec.add_zero] at half_low
  exact ⟨fun k hk => read .byte k hk, half_low, read .half 2 (by decide)⟩

/-- Byte `k` of a word is the word shifted down and masked. -/
theorem zext_byte_eq_shift_mask (v : Word) (k : Nat) : zext (v.extractLsb' k 8) = (v >>> k) &&& 0xFF#32 := by
  apply BitVec.eq_of_toNat_eq
  rw [toNat_zext _ (by decide), BitVec.extractLsb'_toNat, BitVec.toNat_and, BitVec.toNat_ushiftRight]
  exact (Nat.and_two_pow_sub_one_eq_mod _ 8).symm

/-- Settles O20: the whole word, and its four bytes as shifts and masks. -/
theorem storedWordIsLoadedBack : Obligations.StoredWordIsLoadedBack := by
  intro s t kind a v hs h
  have whole := memRead_inside_word_written kind .word 0 hs h (by decide)
  rw [BitVec.add_zero] at whole
  have byte (k : Nat) (hk : k < 4) :
      t.memRead kind (a + BitVec.ofNat 32 k) .byte = .ok ((v >>> (8 * k)) &&& 0xFF#32) :=
    zext_byte_eq_shift_mask v (8 * k) ▸ memRead_inside_word_written kind .byte k hs h hk
  have byte_low := byte 0 (by decide)
  rw [BitVec.add_zero] at byte_low
  refine ⟨?_, byte_low, byte 1 (by decide), byte 2 (by decide), byte 3 (by decide)⟩
  rw [whole]
  simp [zext]

/-! ### Effective addresses (R51) -/

/-- Settles O21: an effective address is a register plus a sign-extended field. -/
theorem effectiveAddressWraps : Obligations.EffectiveAddressWraps :=
  fun s rs1 imm => toNat_add_sext (s.readReg rs1) imm (by decide)

/-! ### What a cycle changes in memory (R45, R48, R49) -/

section memory

variable {rd : RegIdx} {target : Word} {taken : Bool} {ext : Word → Word}

theorem finish_next_mem (h : s.finish rd v = .next t) : t.mem = s.mem := by
  cases h
  rw [advance_mem, writeReg_mem]

theorem jump_next_mem (h : s.jump rd target = .next t) : t.mem = s.mem := by
  cases h
  rw [setPc_mem, writeReg_mem]

theorem load_next_mem (h : s.load rd a w ext = .next t) : t.mem = s.mem := by
  rw [load_eq] at h
  split_ifs at h
  exact finish_next_mem h

theorem branch_next_mem (h : s.branch taken target = .next t) : t.mem = s.mem := by
  rw [branch_eq] at h
  cases h
  rw [setPc_mem]

/-- A store that completes was in bounds, stored its bytes and fell through. -/
theorem store_next_iff : s.store a w v = .next t ↔
    a.toNat + w.bytes ≤ s.cfg.memSize ∧ (s.setMem (s.mem.writeLE a.toNat w.bytes v)).advance = t := by
  rw [store_eq]
  split_ifs with h <;> simp [h]

/-- An instruction leaves memory alone, or its one data access is a store, in bounds, of those bytes. -/
theorem exec_next_mem_cases (h : exec i s = .next t) :
    t.mem = s.mem ∨ ∃ (a : Word) (w : Width) (v : Word), dataAccess i s = some (.store, a, w.bytes) ∧
      a.toNat + w.bytes ≤ s.cfg.memSize ∧ t.mem = s.mem.writeLE a.toNat w.bytes v := by
  cases i with
  | lui | auipc | addi | slti | sltiu | xori | ori | andi | slli | srli | srai | add | sub | sll | slt | sltu | xor
  | srl | sra | or | and => exact .inl (finish_next_mem h)
  | jal | jalr => exact .inl (jump_next_mem h)
  | lb | lh | lw | lbu | lhu => exact .inl (load_next_mem h)
  | beq | bne | blt | bge | bltu | bgeu => exact .inl (branch_next_mem h)
  | sb | sh | sw =>
    obtain ⟨hbound, rfl⟩ := store_next_iff.1 h
    exact .inr ⟨_, _, _, rfl, hbound, rfl⟩
  | fence | fencei => cases h

end memory

/-- Settles O50: the cycle's instruction stored, and a byte outside what it stored is as before. -/
theorem onlyStoresChangeMemory : Obligations.OnlyStoresChangeMemory := by
  intro s t b h hchanged
  obtain ⟨i, hdecode, hexec⟩ := step_next_exec h
  obtain hmem | ⟨a, w, v, haccess, hbound, hmem⟩ := exec_next_mem_cases hexec
  · exact absurd (by rw [hmem]) hchanged
  · have hinside : ¬(b < a.toNat ∨ a.toNat + w.bytes ≤ b) := fun hout =>
      hchanged (hmem ▸ readByte_writeLE_outside w.bytes s.mem a.toNat b v hout)
    exact ⟨i, a, w.bytes, hdecode, haccess, by omega, by omega, by omega⟩

/-! ### The fetch sees a store (R59) -/

/-- A cycle whose fetch answers a word that decodes is that instruction's `exec`. -/
theorem step_eq_exec (hfetch : s.fetch = .ok raw) (hdecode : decode raw = .ok i) : step s = exec i s := by
  simp only [step, hfetch, hdecode]

/-- Settles O55: the word at the next pc is the word stored there. -/
theorem storeIsSeenByTheNextFetch : Obligations.StoreIsSeenByTheNextFetch := by
  intro s t rs1 rs2 imm hm h haddr
  obtain ⟨hbound, ht⟩ := store_next_iff.1 (h : s.store (s.effAddr rs1 imm) .word (s.readReg rs2) = .next t)
  rw [haddr, bytes_word] at hbound ht
  have hfetch : t.fetch = .ok (s.readReg rs2) := by
    subst ht
    exact memRead_eq_ok_iff.2 ⟨hbound, readLE_writeLE_word s.mem (s.pc + 4#32).toNat (s.readReg rs2) hm⟩
  exact ⟨by rw [← ht, advance_pc, setMem_pc], hfetch, fun i hdecode => step_eq_exec hfetch hdecode⟩

end Sys2Proof.Machine
end

section
/-! PROOFS. The statements of 30_encoding.md about the fields of a word, its decoded record and the opcode table (R71 to
R108). The operation of a word depends only on the fields the decoder examines (`operation_congr`), and every other
field of its record is read off the word by the operation's format (`decodeRecord_eq_recordFor`); the statements follow
from these two and from closed facts about the rows of the table. -/

namespace Sys2Proof

open Sys2Proof.Claims Sys2Proof.Machine

/-! ### Fields as numbers (R71) -/

/-- A slice of a word, as a number. -/
theorem toNat_slice (raw : Word) (lo n : Nat) : (raw.extractLsb' lo n).toNat = raw.toNat / 2 ^ lo % 2 ^ n := by
  rw [BitVec.extractLsb'_toNat, Nat.shiftRight_eq_div_pow]

/-- Settles O1: each field is a slice; `opcode` starts at bit 0 and `funct7` ends at the top bit. -/
theorem fieldsAreSlicesOfTheWord : Obligations.FieldsAreSlicesOfTheWord := by
  intro raw
  have hopcode : (opcodeOf raw).toNat = raw.toNat % 2 ^ 7 := by rw [opcodeOf, toNat_slice, pow_zero, Nat.div_one]
  have hfunct7 : (funct7Of raw).toNat = raw.toNat / 2 ^ 25 := by
    rw [funct7Of, toNat_slice]
    exact Nat.mod_eq_of_lt (by omega)
  exact ⟨hopcode, toNat_slice raw 7 5, toNat_slice raw 12 3, toNat_slice raw 15 5, toNat_slice raw 20 5, hfunct7⟩

/-! ### The bits of the immediates (R74 to R78) -/

/-- Bit `k` of an immediate, inside a slice at `lo` that the word holds at `src`. -/
theorem getLsbD_of_slice_eq {m lo src n k j : Nat} {imm : BitVec m} {raw : Word}
    (hslice : imm.extractLsb' lo n = raw.extractLsb' src n) (hk : lo ≤ k ∧ k < lo + n) (hj : lo + j = src + k) :
    imm.getLsbD k = raw.getLsbD j := by
  have hbit := congrArg (fun v : BitVec n => v.getLsbD (k - lo)) hslice
  simpa only [BitVec.getLsbD_extractLsb', decide_eq_true (show k - lo < n by omega), Bool.true_and,
    show lo + (k - lo) = k by omega, show src + (k - lo) = j by omega] using hbit

section bits
variable (raw : Word) {k : Nat}

theorem getLsbD_immIOf (hk : k < 12) : (immIOf raw).getLsbD k = raw.getLsbD (20 + k) :=
  getLsbD_of_slice_eq (lo := 0) BitVec.extractLsb'_eq_self (by omega) (by omega)

theorem getLsbD_immSOf (hk : k < 12) :
    (immSOf raw).getLsbD k = raw.getLsbD (if k < 5 then 7 + k else 20 + k) := by
  have low : (immSOf raw).extractLsb' 0 5 = raw.extractLsb' 7 5 := field_low
  have high : (immSOf raw).extractLsb' 5 7 = raw.extractLsb' 25 7 :=
    (field_above (w := 5) (by decide)).trans BitVec.extractLsb'_eq_self
  split_ifs
  · exact getLsbD_of_slice_eq low (by omega) (by omega)
  · exact getLsbD_of_slice_eq high (by omega) (by omega)

theorem getLsbD_immBOf (hk : k < 13) : (immBOf raw).getLsbD k =
    if k = 0 then false
    else raw.getLsbD (if k < 5 then 7 + k else if k < 11 then 20 + k else if k = 11 then 7 else 31) := by
  have bits4 : (immBOf raw).extractLsb' 1 4 = raw.extractLsb' 8 4 := (field_above (w := 1) (by decide)).trans field_low
  have bits10 : (immBOf raw).extractLsb' 5 6 = raw.extractLsb' 25 6 :=
    (field_above (w := 1) (by decide)).trans ((field_above (w := 4) (by decide)).trans field_low)
  have bit11 : (immBOf raw).extractLsb' 11 1 = raw.extractLsb' 7 1 :=
    (field_above (w := 1) (by decide)).trans ((field_above (w := 4) (by decide)).trans
      ((field_above (w := 6) (by decide)).trans field_low))
  have bit12 : (immBOf raw).extractLsb' 12 1 = raw.extractLsb' 31 1 :=
    (field_above (w := 1) (by decide)).trans ((field_above (w := 4) (by decide)).trans
      ((field_above (w := 6) (by decide)).trans ((field_above (w := 1) (by decide)).trans BitVec.extractLsb'_eq_self)))
  split_ifs with hzero
  · exact hzero ▸ immBOf_even raw
  · exact getLsbD_of_slice_eq bits4 (by omega) (by omega)
  · exact getLsbD_of_slice_eq bits10 (by omega) (by omega)
  · exact getLsbD_of_slice_eq bit11 (by omega) (by omega)
  · exact getLsbD_of_slice_eq bit12 (by omega) (by omega)

theorem getLsbD_immU (hk : k < 32) : (immU (imm20Of raw)).getLsbD k = if k < 12 then false else raw.getLsbD k := by
  have low : (immU (imm20Of raw)).extractLsb' 0 12 = (0#32).extractLsb' 0 12 := field_low
  have high : (immU (imm20Of raw)).extractLsb' 12 20 = raw.extractLsb' 12 20 :=
    (field_above (w := 12) (by decide)).trans BitVec.extractLsb'_eq_self
  split_ifs
  · exact (getLsbD_of_slice_eq low (by omega) rfl).trans BitVec.getLsbD_zero
  · exact getLsbD_of_slice_eq high (by omega) rfl

theorem getLsbD_immJOf (hk : k < 21) : (immJOf raw).getLsbD k =
    if k = 0 then false
    else raw.getLsbD (if k < 11 then 20 + k else if k = 11 then 20 else if k < 20 then k else 31) := by
  have bits10 : (immJOf raw).extractLsb' 1 10 = raw.extractLsb' 21 10 :=
    (field_above (w := 1) (by decide)).trans field_low
  have bit11 : (immJOf raw).extractLsb' 11 1 = raw.extractLsb' 20 1 :=
    (field_above (w := 1) (by decide)).trans ((field_above (w := 10) (by decide)).trans field_low)
  have bits19 : (immJOf raw).extractLsb' 12 8 = raw.extractLsb' 12 8 :=
    (field_above (w := 1) (by decide)).trans ((field_above (w := 10) (by decide)).trans
      ((field_above (w := 1) (by decide)).trans field_low))
  have bit20 : (immJOf raw).extractLsb' 20 1 = raw.extractLsb' 31 1 :=
    (field_above (w := 1) (by decide)).trans ((field_above (w := 10) (by decide)).trans
      ((field_above (w := 1) (by decide)).trans ((field_above (w := 8) (by decide)).trans BitVec.extractLsb'_eq_self)))
  split_ifs with hzero
  · exact hzero ▸ immJOf_even raw
  · exact getLsbD_of_slice_eq bits10 (by omega) (by omega)
  · exact getLsbD_of_slice_eq bit11 (by omega) (by omega)
  · exact getLsbD_of_slice_eq bits19 (by omega) (by omega)
  · exact getLsbD_of_slice_eq bit20 (by omega) (by omega)

end bits

/-- Settles O3: format by format. -/
theorem immediateBitsComeFromTheirSlices : Obligations.ImmediateBitsComeFromTheirSlices :=
  fun raw => ⟨fun _ => getLsbD_immIOf raw, fun _ => getLsbD_immSOf raw, fun _ => getLsbD_immBOf raw,
    fun _ => getLsbD_immU raw, fun _ => getLsbD_immJOf raw⟩

/-! ### The record of a word, by the format of its operation (R91) -/

/-- The record a word has if `op` is its operation: every field the format of `op` sets, read from the word. -/
def recordFor (op : Operation) (raw : Word) : Record :=
  match formatOf op with
  | some .R => recordR op (funct3Of raw) (funct7Of raw) (rdOf raw) (rs1Of raw) (rs2Of raw)
  | some .I => recordI op (funct3Of raw) (rdOf raw) (rs1Of raw)
      (if op = .SRLI ∨ op = .SRAI then (shamtOf raw).setWidth 12 else immIOf raw)
  | some .S => recordS op (funct3Of raw) (rs1Of raw) (rs2Of raw) (immSOf raw)
  | some .B => recordB op (funct3Of raw) (rs1Of raw) (rs2Of raw) (immBOf raw)
  | some .U => recordU op (rdOf raw) (imm20Of raw)
  | some .J => recordJ op (rdOf raw) (immJOf raw)
  | none => Record.invalid

/-- The ten opcodes of R95. -/
abbrev primaryOpcodes : List (BitVec 7) :=
  [opLUI, opAUIPC, opJAL, opJALR, opBRANCH, opLOAD, opSTORE, opARITHIMM, opARITH, opFENCE]

/-- The opcodes whose group decides the operation without `funct3` (R96, R97). -/
abbrev opcodesWithoutFunct3 : List (BitVec 7) := [opLUI, opAUIPC, opJAL, opJALR]

/-- The values of opcode and `funct3` where the operation depends on whether `funct7` is zero (R101, R102). -/
abbrev ExaminesFunct7 (op : BitVec 7) (f3 : BitVec 3) : Prop :=
  (op = opARITH ∧ (f3 = 0#3 ∨ f3 = 5#3)) ∨ (op = opARITHIMM ∧ f3 = 5#3)

section records
variable {raw raw' : Word}

/-- The record of a word that does not decode. -/
theorem decodeRecord_of_error {e : DecodeReject} (h : decode raw = .error e) : decodeRecord raw = Record.invalid := by
  unfold decodeRecord
  rw [h]

theorem decode_noSuchOpcode (h : opcodeOf raw ∉ primaryOpcodes) :
    decode raw = .error (.noSuchOpcode (opcodeOf raw)) := by
  simp only [List.mem_cons, List.not_mem_nil, or_false, not_or] at h
  simp only [decode, h, if_false]

theorem funct3_cases (f3 : BitVec 3) :
    f3 = 0#3 ∨ f3 = 1#3 ∨ f3 = 2#3 ∨ f3 = 3#3 ∨ f3 = 4#3 ∨ f3 = 5#3 ∨ f3 = 6#3 ∨ f3 = 7#3 := by
  revert f3
  decide

/-- A record is read off its word by the operation's format: an arm of the decoder answers for one value of `funct3`,
which is the one its record carries. -/
theorem decodeRecord_eq_recordFor (raw : Word) : decodeRecord raw = recordFor (decodeRecord raw).operation raw := by
  by_cases hop : opcodeOf raw ∈ primaryOpcodes
  case neg => rw [decodeRecord_of_error (decode_noSuchOpcode hop)]; rfl
  simp only [List.mem_cons, List.not_mem_nil, or_false] at hop
  rcases hop with h | h | h | h | h | h | h | h | h | h
  · rw [decodeRecord_of_decode (decode_lui h)]; rfl
  · rw [decodeRecord_of_decode (decode_auipc h)]; rfl
  · rw [decodeRecord_of_decode (decode_jal h)]; rfl
  · rw [decodeRecord_of_decode (decode_jalr h)]; rfl
  · rw [decodeRecord, decode_branch h, decodeBranch]
    rcases funct3_cases (funct3Of raw) with h3 | h3 | h3 | h3 | h3 | h3 | h3 | h3 <;>
      simp [h3, Instr.toRecord, recordFor, formatOf, recordB, Record.invalid]
  · rw [decodeRecord, decode_load h, decodeLoad]
    rcases funct3_cases (funct3Of raw) with h3 | h3 | h3 | h3 | h3 | h3 | h3 | h3 <;>
      simp [h3, Instr.toRecord, recordFor, formatOf, recordI, Record.invalid]
  · rw [decodeRecord, decode_store h, decodeStore]
    rcases funct3_cases (funct3Of raw) with h3 | h3 | h3 | h3 | h3 | h3 | h3 | h3 <;>
      simp [h3, Instr.toRecord, recordFor, formatOf, recordS, Record.invalid]
  · rw [decodeRecord_of_decode (decode_arithImm h), decodeArithImm]
    by_cases h7 : funct7Of raw = 0#7 <;>
      rcases funct3_cases (funct3Of raw) with h3 | h3 | h3 | h3 | h3 | h3 | h3 | h3 <;>
        simp [h3, h7, Instr.toRecord, recordFor, formatOf, recordI]
  · rw [decodeRecord_of_decode (decode_arith h), decodeArith]
    by_cases h7 : funct7Of raw = 0#7 <;>
      rcases funct3_cases (funct3Of raw) with h3 | h3 | h3 | h3 | h3 | h3 | h3 | h3 <;>
        simp [h3, h7, Instr.toRecord, recordFor, formatOf, recordR]
  · rw [decodeRecord, decode_fence h, decodeFence]
    rcases funct3_cases (funct3Of raw) with h3 | h3 | h3 | h3 | h3 | h3 | h3 | h3 <;>
      simp [h3, Instr.toRecord, recordFor, formatOf, recordI, Record.invalid]

/-- The five bits of a shift amount, extended to twelve, are not negative: both extensions to a word are the same. -/
theorem ext_setWidth_five (v : BitVec 5) : zext (v.setWidth 12) = zext v ∧ sext (v.setWidth 12) = zext v := by
  have hzext : zext (v.setWidth 12) = zext v :=
    BitVec.eq_of_toNat_eq <| by
      rw [toNat_zext _ (by decide), toNat_zext _ (by decide), BitVec.toNat_setWidth_of_le (by decide)]
  have hmsb : (v.setWidth 12).msb = false := by simp [BitVec.msb_setWidth]
  exact ⟨hzext, (BitVec.signExtend_eq_setWidth_of_msb_false hmsb).trans hzext⟩

/-- Settles O6: `recordFor`, format by format. -/
theorem recordSetsExactlyItsFormatsFields : Obligations.RecordSetsExactlyItsFormatsFields := by
  intro raw r
  have hr : r = recordFor r.operation raw := decodeRecord_eq_recordFor raw
  clear_value r
  generalize r.operation = op at hr ⊢
  subst hr
  cases hf : formatOf op with
  | none => simp [recordFor, hf]
  | some f =>
    cases f with
    | R => simp [recordFor, hf, recordR]
    | I =>
      obtain ⟨hzext, hsext⟩ := ext_setWidth_five (shamtOf raw)
      split_ifs <;> simp [recordFor, recordI, *]
    | S => simp [recordFor, hf, recordS]
    | B => simp [recordFor, hf, recordB]
    | U => simp [recordFor, hf, recordU]
    | J => simp [recordFor, hf, recordJ]

/-! ### The operation of a word, by the fields the decoder examines (R96 to R103) -/

/-- In ARITH_IMM, `funct3` decides the operation, with `funct7` where `funct3` is 5 (R101). -/
theorem operation_decodeArithImm_congr (h3 : funct3Of raw = funct3Of raw')
    (h7 : funct3Of raw' = 5#3 → (funct7Of raw = 0#7 ↔ funct7Of raw' = 0#7)) :
    (decodeArithImm raw).toRecord.operation = (decodeArithImm raw').toRecord.operation := by
  rw [decodeArithImm, decodeArithImm, h3]
  rcases funct3_cases (funct3Of raw') with h | h | h | h | h | h | h | h
  iterate 5 simp [h, Instr.toRecord, recordI]
  · by_cases hzero : funct7Of raw' = 0#7 <;> simp [h, h7 h, hzero, Instr.toRecord, recordI]
  all_goals simp [h, Instr.toRecord, recordI]

/-- In ARITH, `funct3` decides the operation, with `funct7` where `funct3` is 0 or 5 (R102). -/
theorem operation_decodeArith_congr (h3 : funct3Of raw = funct3Of raw')
    (h7 : funct3Of raw' = 0#3 ∨ funct3Of raw' = 5#3 → (funct7Of raw = 0#7 ↔ funct7Of raw' = 0#7)) :
    (decodeArith raw).toRecord.operation = (decodeArith raw').toRecord.operation := by
  rw [decodeArith, decodeArith, h3]
  rcases funct3_cases (funct3Of raw') with h | h | h | h | h | h | h | h
  · by_cases hzero : funct7Of raw' = 0#7 <;> simp [h, h7 (.inl h), hzero, Instr.toRecord, recordR]
  iterate 4 simp [h, Instr.toRecord, recordR]
  · by_cases hzero : funct7Of raw' = 0#7 <;> simp [h, h7 (.inr h), hzero, Instr.toRecord, recordR]
  all_goals simp [h, Instr.toRecord, recordR]

/-- Two words have one operation if they agree on the opcode, on `funct3` where it is examined, and on whether `funct7` is
zero where that is examined. -/
theorem operation_congr (hop : opcodeOf raw = opcodeOf raw')
    (h3 : opcodeOf raw ∉ opcodesWithoutFunct3 → funct3Of raw = funct3Of raw')
    (h7 : ExaminesFunct7 (opcodeOf raw) (funct3Of raw) → (funct7Of raw = 0#7 ↔ funct7Of raw' = 0#7)) :
    (decodeRecord raw).operation = (decodeRecord raw').operation := by
  by_cases hprimary : opcodeOf raw ∈ primaryOpcodes
  case neg =>
    rw [decodeRecord_of_error (decode_noSuchOpcode hprimary),
      decodeRecord_of_error (decode_noSuchOpcode (hop ▸ hprimary))]
  simp only [List.mem_cons, List.not_mem_nil, or_false] at hprimary
  rcases hprimary with h | h | h | h | h | h | h | h | h | h
  all_goals
    have h' := hop.symm.trans h
    rw [h] at h3 h7
  · rw [decodeRecord_of_decode (decode_lui h), decodeRecord_of_decode (decode_lui h')]
    simp only [Instr.toRecord, recordU]
  · rw [decodeRecord_of_decode (decode_auipc h), decodeRecord_of_decode (decode_auipc h')]
    simp only [Instr.toRecord, recordU]
  · rw [decodeRecord_of_decode (decode_jal h), decodeRecord_of_decode (decode_jal h')]
    simp only [Instr.toRecord, recordJ]
  · rw [decodeRecord_of_decode (decode_jalr h), decodeRecord_of_decode (decode_jalr h')]
    simp only [Instr.toRecord, recordI]
  · rw [decodeRecord, decodeRecord, decode_branch h, decode_branch h', decodeBranch, decodeBranch, h3 (by decide)]
    rcases funct3_cases (funct3Of raw') with h | h | h | h | h | h | h | h <;>
      simp [h, Instr.toRecord, recordB, Record.invalid]
  · rw [decodeRecord, decodeRecord, decode_load h, decode_load h', decodeLoad, decodeLoad, h3 (by decide)]
    rcases funct3_cases (funct3Of raw') with h | h | h | h | h | h | h | h <;>
      simp [h, Instr.toRecord, recordI, Record.invalid]
  · rw [decodeRecord, decodeRecord, decode_store h, decode_store h', decodeStore, decodeStore, h3 (by decide)]
    rcases funct3_cases (funct3Of raw') with h | h | h | h | h | h | h | h <;>
      simp [h, Instr.toRecord, recordS, Record.invalid]
  · have hfunct3 := h3 (by decide)
    rw [hfunct3] at h7
    rw [decodeRecord_of_decode (decode_arithImm h), decodeRecord_of_decode (decode_arithImm h')]
    exact operation_decodeArithImm_congr hfunct3 fun h5 => h7 (.inr ⟨rfl, h5⟩)
  · have hfunct3 := h3 (by decide)
    rw [hfunct3] at h7
    rw [decodeRecord_of_decode (decode_arith h), decodeRecord_of_decode (decode_arith h')]
    exact operation_decodeArith_congr hfunct3 fun h05 => h7 (.inl ⟨rfl, h05⟩)
  · rw [decodeRecord, decodeRecord, decode_fence h, decode_fence h', decodeFence, decodeFence, h3 (by decide)]
    rcases funct3_cases (funct3Of raw') with h | h | h | h | h | h | h | h <;>
      simp [h, Instr.toRecord, recordI, Record.invalid]

/-- A row's match word decodes to the row's operation. -/
theorem operation_matchWord : ∀ row ∈ opcodeTable, (decodeRecord row.matchWord).operation = row.operation := by
  decide

/-- The four shapes of a row: it fixes the opcode alone, or the opcode and `funct3`, or these and that `funct7` is
nonzero, or these and that `funct7` is zero; and what it leaves open the decoder does not examine. -/
theorem row_shape : ∀ row ∈ opcodeTable,
    (row.mask = 0x0000007F#32 ∧ row.constraint = .unconstrained ∧ opcodeOf row.matchWord ∈ opcodesWithoutFunct3) ∨
    (row.mask = 0x0000707F#32 ∧ row.constraint = .unconstrained ∧
      ¬ExaminesFunct7 (opcodeOf row.matchWord) (funct3Of row.matchWord)) ∨
    (row.mask = 0x0000707F#32 ∧ row.constraint = .isNonzero ∧ funct7Of row.matchWord ≠ 0#7) ∨
    (row.mask = 0xFE00707F#32 ∧ row.constraint = .isZero ∧ funct7Of row.matchWord = 0#7) := by decide

/-- Where `funct7` is examined, so is `funct3`. -/
theorem examinesFunct7_opcode {op : BitVec 7} {f3 : BitVec 3} (h : ExaminesFunct7 op f3) :
    op ∉ opcodesWithoutFunct3 := by
  obtain ⟨rfl, -⟩ | ⟨rfl, -⟩ := h <;> decide

/-- A row that accepts a word names its operation: the word and the row's match word agree where the decoder looks. -/
theorem operation_of_accepts {row : Row} (hrow : row ∈ opcodeTable) (haccepts : row.accepts raw = true) :
    (decodeRecord raw).operation = row.operation := by
  rw [← operation_matchWord row hrow]
  have hshape := row_shape row hrow
  obtain ⟨o, m, mask, c⟩ := row
  obtain ⟨rfl, rfl, hm⟩ | ⟨rfl, rfl, hm⟩ | ⟨rfl, rfl, hm⟩ | ⟨rfl, rfl, hm⟩ := hshape
  · obtain ⟨hop, -⟩ := (accepts_opcode _ _ _ _).1 haccepts
    rw [← hop] at hm
    exact operation_congr hop (absurd hm) fun hexamines => absurd hm (examinesFunct7_opcode hexamines)
  · obtain ⟨hop, h3, -⟩ := (accepts_funct3 _ _ _ _).1 haccepts
    rw [← hop, ← h3] at hm
    exact operation_congr hop (fun _ => h3) fun hexamines => absurd hexamines hm
  · obtain ⟨hop, h3, h7⟩ := (accepts_funct3 _ _ _ _).1 haccepts
    exact operation_congr hop (fun _ => h3) fun _ => iff_of_false (bne_iff_ne.1 h7) hm
  · obtain ⟨hop, h3, -, h7⟩ := (accepts_funct7 _ _ _ _).1 haccepts
    exact operation_congr hop (fun _ => h3) fun _ => iff_of_true (beq_iff_eq.1 h7) hm

/-- The words with no mapping (R104): an opcode of no group, or an undefined `funct3` of its group. -/
abbrev Fallthrough (op : BitVec 7) (f3 : BitVec 3) : Prop :=
  (op ∉ primaryOpcodes) ∨ (op = opBRANCH ∧ f3 ∈ [2#3, 3#3]) ∨ (op = opLOAD ∧ f3 ∈ [3#3, 6#3, 7#3]) ∨
    (op = opSTORE ∧ f3 ∈ [3#3, 4#3, 5#3, 6#3, 7#3]) ∨ (op = opFENCE ∧ f3 ∈ [2#3, 3#3, 4#3, 5#3, 6#3, 7#3])

theorem decodeRecord_of_fallthrough (h : Fallthrough (opcodeOf raw) (funct3Of raw)) :
    decodeRecord raw = Record.invalid := by
  obtain hop | ⟨hop, h3⟩ | ⟨hop, h3⟩ | ⟨hop, h3⟩ | ⟨hop, h3⟩ := h
  · exact decodeRecord_of_error (decode_noSuchOpcode hop)
  all_goals simp only [List.mem_cons, List.not_mem_nil, or_false] at h3
  · rw [decodeRecord, decode_branch hop, decodeBranch]
    obtain h3 | h3 := h3 <;> rw [h3] <;> rfl
  · rw [decodeRecord, decode_load hop, decodeLoad]
    obtain h3 | h3 | h3 := h3 <;> rw [h3] <;> rfl
  · rw [decodeRecord, decode_store hop, decodeStore]
    obtain h3 | h3 | h3 | h3 | h3 := h3 <;> rw [h3] <;> rfl
  · rw [decodeRecord, decode_fence hop, decodeFence]
    obtain h3 | h3 | h3 | h3 | h3 | h3 := h3 <;> rw [h3] <;> rfl

/-- Where the opcode decides the operation, a row fixes the opcode alone. -/
theorem exists_row_of_opcode : ∀ op ∈ opcodesWithoutFunct3, ∃ row ∈ opcodeTable, row.mask = 0x0000007F#32 ∧
    row.constraint = .unconstrained ∧ opcodeOf row.matchWord = op := by decide

/-- Where `funct3` decides it and has a defined value, a row fixes the opcode and `funct3`. -/
theorem exists_row_of_funct3 {op : BitVec 7} {f3 : BitVec 3} (hop : op ∈ primaryOpcodes)
    (hfunct3 : op ∉ opcodesWithoutFunct3) (hdefined : ¬Fallthrough op f3) (hfunct7 : ¬ExaminesFunct7 op f3) :
    ∃ row ∈ opcodeTable, row.mask = 0x0000707F#32 ∧ row.constraint = .unconstrained ∧
      opcodeOf row.matchWord = op ∧ funct3Of row.matchWord = f3 := by
  simp only [List.mem_cons, List.not_mem_nil, or_false] at hop
  revert f3
  rcases hop with rfl | rfl | rfl | rfl | rfl | rfl | rfl | rfl | rfl | rfl
  iterate 4 exact absurd (by decide) hfunct3
  all_goals decide

/-- Where `funct7` decides it, one row has the zero and one the nonzero values. -/
theorem exists_rows_of_funct7 : ∀ op ∈ primaryOpcodes, ∀ f3 : BitVec 3, ExaminesFunct7 op f3 →
    (∃ row ∈ opcodeTable, row.mask = 0xFE00707F#32 ∧ row.constraint = .isZero ∧ opcodeOf row.matchWord = op ∧
      funct3Of row.matchWord = f3 ∧ funct7Of row.matchWord = 0#7) ∧
    (∃ row ∈ opcodeTable, row.mask = 0x0000707F#32 ∧ row.constraint = .isNonzero ∧ opcodeOf row.matchWord = op ∧
      funct3Of row.matchWord = f3) := by decide

/-- A word that does not fall through is accepted by a row. -/
theorem exists_accepting_row (h : ¬Fallthrough (opcodeOf raw) (funct3Of raw)) :
    ∃ row ∈ opcodeTable, row.accepts raw = true := by
  have hprimary : opcodeOf raw ∈ primaryOpcodes := not_not.1 (not_or.1 h).1
  by_cases hopcode : opcodeOf raw ∈ opcodesWithoutFunct3
  · obtain ⟨⟨o, m, mask, c⟩, hrow, rfl, rfl, hop⟩ := exists_row_of_opcode _ hopcode
    exact ⟨_, hrow, (accepts_opcode _ _ _ _).2 ⟨hop.symm, rfl⟩⟩
  by_cases hexamines : ExaminesFunct7 (opcodeOf raw) (funct3Of raw)
  · obtain ⟨⟨⟨o, m, mask, c⟩, hrow, rfl, rfl, hop, h3, hm⟩, ⟨o', m', mask', c'⟩, hrow', rfl, rfl, hop', h3'⟩ :=
      exists_rows_of_funct7 _ hprimary _ hexamines
    by_cases h7 : funct7Of raw = 0#7
    · exact ⟨_, hrow, (accepts_funct7 _ _ _ _).2 ⟨hop.symm, h3.symm, h7.trans hm.symm, beq_iff_eq.2 h7⟩⟩
    · exact ⟨_, hrow', (accepts_funct3 _ _ _ _).2 ⟨hop'.symm, h3'.symm, bne_iff_ne.2 h7⟩⟩
  · obtain ⟨⟨o, m, mask, c⟩, hrow, rfl, rfl, hop, h3⟩ := exists_row_of_funct3 hprimary hopcode h hexamines
    exact ⟨_, hrow, (accepts_funct3 _ _ _ _).2 ⟨hop.symm, h3.symm, rfl⟩⟩

theorem row_operation_ne_invalid : ∀ row ∈ opcodeTable, row.operation ≠ .INVALID := by decide

/-- The words with no mapping, exactly: every other word is accepted by a row, and no row is a row of `INVALID`. -/
theorem operation_eq_invalid_iff :
    (decodeRecord raw).operation = .INVALID ↔ Fallthrough (opcodeOf raw) (funct3Of raw) := by
  refine ⟨fun hinvalid => ?_, fun h => by rw [decodeRecord_of_fallthrough h]; rfl⟩
  by_contra h
  obtain ⟨row, hrow, haccepts⟩ := exists_accepting_row h
  exact row_operation_ne_invalid row hrow ((operation_of_accepts hrow haccepts).symm.trans hinvalid)

end records

/-- Settles O7: the record of `INVALID` has no format, so nothing else is set. -/
theorem fallthroughWordsExactly : Obligations.FallthroughWordsExactly := by
  intro raw
  refine ⟨operation_eq_invalid_iff, fun hinvalid => ?_⟩
  rw [decodeRecord_eq_recordFor, hinvalid]
  rfl

/-! ### The decoder and the opcode table (R108) -/

section table
variable {raw raw' : Word} {op : Operation}

theorem operation_eq_iff_row (hop : op ≠ .INVALID) :
    (decodeRecord raw).operation = op ↔ ∃ row ∈ opcodeTable, row.operation = op ∧ row.accepts raw = true := by
  constructor
  · rintro rfl
    obtain ⟨row, hrow, haccepts⟩ := exists_accepting_row (mt operation_eq_invalid_iff.2 hop)
    exact ⟨row, hrow, (operation_of_accepts hrow haccepts).symm, haccepts⟩
  · rintro ⟨row, hrow, rfl, haccepts⟩
    exact operation_of_accepts hrow haccepts

theorem operation_eq_invalid_iff_no_row :
    (decodeRecord raw).operation = .INVALID ↔ ∀ row ∈ opcodeTable, row.accepts raw = false := by
  constructor
  · intro hinvalid row hrow
    refine Bool.eq_false_iff.2 fun haccepts => ?_
    exact row_operation_ne_invalid row hrow ((operation_of_accepts hrow haccepts).symm.trans hinvalid)
  · intro hnone
    refine operation_eq_invalid_iff.2 (not_not.1 fun h => ?_)
    obtain ⟨row, hrow, haccepts⟩ := exists_accepting_row h
    exact Bool.false_ne_true ((hnone row hrow).symm.trans haccepts)

theorem row_operations_nodup : (opcodeTable.map Row.operation).Nodup := by decide

/-- Two rows that accept one word both name its operation, and no two rows name the same. -/
theorem row_unique {r q : Row} (hr : r ∈ opcodeTable) (hq : q ∈ opcodeTable) (har : r.accepts raw = true)
    (haq : q.accepts raw = true) : r = q :=
  List.inj_on_of_nodup_map row_operations_nodup hr hq
    ((operation_of_accepts hr har).symm.trans (operation_of_accepts hq haq))

theorem matchWord_canonical : ∀ row ∈ opcodeTable, rdOf row.matchWord = 0#5 ∧ rs1Of row.matchWord = 0#5 ∧
    rs2Of row.matchWord = 0#5 ∧ funct7Of row.matchWord = if row.constraint = .isNonzero then 0x20#7 else 0#7 := by
  decide

/-- A row for the nonzero values of `funct7` answers for every one of them. -/
theorem operation_of_nonzero_funct7 {m : Word} (hrow : ⟨op, m, 0x0000707F#32, .isNonzero⟩ ∈ opcodeTable)
    (hop : opcodeOf raw = opcodeOf m) (h3 : funct3Of raw = funct3Of m) (h7 : funct7Of raw ≠ 0#7) :
    (decodeRecord raw).operation = op :=
  operation_of_accepts hrow ((accepts_funct3 _ _ _ _).2 ⟨hop, h3, bne_iff_ne.2 h7⟩)

/-- Outside ADD, SUB, SRL, SRA, SRLI and SRAI, `funct7` has no part in the operation. -/
theorem operation_congr_any_funct7 (hop : opcodeOf raw = opcodeOf raw') (h3 : funct3Of raw = funct3Of raw')
    (h : ¬ExaminesFunct7 (opcodeOf raw) (funct3Of raw)) :
    (decodeRecord raw).operation = (decodeRecord raw').operation :=
  operation_congr hop (fun _ => h3) fun hexamines => absurd hexamines h

end table

/-- Settles O8: a row accepts exactly the words with its operation; (a) and (b) are rows for the nonzero values of
`funct7`, (c) is that it is not examined elsewhere, and (d) is the whole group JALR. -/
theorem decoderAgreesWithTheOpcodeTable : Obligations.DecoderAgreesWithTheOpcodeTable := by
  refine ⟨fun _ _ => operation_eq_iff_row, fun _ => operation_eq_invalid_iff_no_row,
    fun _ _ hr _ hq => row_unique hr hq,
    fun row hrow => ⟨operation_matchWord row hrow, matchWord_canonical row hrow⟩, ?_, ?_, ?_, ?_⟩
  · exact fun raw hop h7 =>
      ⟨fun h3 => operation_of_nonzero_funct7 (m := 0x40000033#32) (by decide) hop h3 h7,
        fun h3 => operation_of_nonzero_funct7 (m := 0x40005033#32) (by decide) hop h3 h7⟩
  · exact fun raw hop h3 h7 => operation_of_nonzero_funct7 (m := 0x40005013#32) (by decide) hop h3 h7
  · intro raw raw' hop h3 hcase
    refine operation_congr_any_funct7 hop h3 ?_
    obtain ⟨h, hne⟩ | ⟨h, h1⟩ := hcase
    · rintro (⟨-, h0 | h5⟩ | ⟨habs, -⟩)
      · exact hne (by simp [h0])
      · exact hne (by simp [h5])
      · exact absurd (h.symm.trans habs) (by decide)
    · rw [h, h1]
      decide
  · intro raw hop
    rw [decodeRecord_of_decode (decode_jalr hop)]
    rfl

/-! ### The immediate in the record (R81, R82) -/

/-- A field comes back from its zero extension. -/
theorem setWidth_zext {n : Nat} (v : BitVec n) (h : n ≤ 32) : (zext v).setWidth n = v := by
  rw [zext, BitVec.setWidth_setWidth_of_le _ h, BitVec.setWidth_eq]

/-- The sign extension of a field is the signed reading of the field its zero extension packs. -/
theorem toInt_sext_eq_signedField {n : Nat} (v : BitVec n) (h : n ≤ 32) :
    (sext v).toInt = signedField ((zext v).setWidth n) := by
  rw [toInt_sext v h, setWidth_zext v h]

theorem toNat_zext_even {n : Nat} {v : BitVec n} (h : n ≤ 32) (hv : v.getLsbD 0 = false) :
    (zext v).toNat % 2 = 0 := by
  rw [toNat_zext v h]
  simpa [BitVec.getLsbD] using hv

theorem toNat_immU (v : BitVec 20) : (immU v).toNat = v.toNat * 2 ^ 12 := by
  rw [immU, BitVec.toNat_append, BitVec.toNat_zero, Nat.or_zero, Nat.shiftLeft_eq]

/-- Settles O4: format by format, on the record its format gives the word. -/
theorem recordImmediateIsSignExtended : Obligations.RecordImmediateIsSignExtended := by
  intro raw f imm simm hf himm hsimm
  rw [decodeRecord_eq_recordFor, recordFor, hf] at himm hsimm
  cases f with
  | R => cases himm
  | I =>
    cases himm
    cases hsimm
    exact ⟨toInt_sext_eq_signedField _ (by decide), by simp, by simp⟩
  | S =>
    cases himm
    cases hsimm
    exact ⟨toInt_sext_eq_signedField _ (by decide), by simp, by simp⟩
  | B =>
    cases himm
    cases hsimm
    exact ⟨toInt_sext_eq_signedField _ (by decide), fun _ => toNat_zext_even (by decide) (immBOf_even raw), by simp⟩
  | U =>
    cases himm
    cases hsimm
    exact ⟨(signedField_eq_toInt _).symm, by simp, fun _ => by rw [toNat_immU]; exact Nat.mul_mod_left _ _⟩
  | J =>
    cases himm
    cases hsimm
    exact ⟨toInt_sext_eq_signedField _ (by decide), fun _ => toNat_zext_even (by decide) (immJOf_even raw), by simp⟩

section shifts
variable {raw : Word}

/-- An ARITH_IMM word with `funct3` 5 is SRLI or SRAI, by its `funct7`; either has the five bits of the shift amount. -/
theorem decodeRecord_of_right_shift (hop : opcodeOf raw = opARITHIMM) (h3 : funct3Of raw = 5#3) :
    ∃ op, decodeRecord raw = recordI op 5#3 (rdOf raw) (rs1Of raw) ((shamtOf raw).setWidth 12) := by
  rw [decodeRecord_of_decode (decode_arithImm hop), decodeArithImm, h3]
  by_cases h7 : funct7Of raw = 0#7
  · exact ⟨.SRLI, by rw [h7]; rfl⟩
  · exact ⟨.SRAI, by rw [if_neg h7]; rfl⟩

/-- An ARITH_IMM word with `funct3` 1 is SLLI, and keeps its twelve bits. -/
theorem decodeRecord_of_slli (hop : opcodeOf raw = opARITHIMM) (h3 : funct3Of raw = 1#3) :
    decodeRecord raw = recordI .SLLI 1#3 (rdOf raw) (rs1Of raw) (immIOf raw) := by
  rw [decodeRecord_of_decode (decode_arithImm hop), decodeArithImm, h3]
  rfl

end shifts

/-- Settles O5: the masked immediate has both extensions equal. -/
theorem shiftImmediateRecords : Obligations.ShiftImmediateRecords := by
  intro raw hop
  constructor
  · intro h3
    obtain ⟨op, hrecord⟩ := decodeRecord_of_right_shift hop h3
    obtain ⟨hzext, hsext⟩ := ext_setWidth_five (shamtOf raw)
    rw [hrecord]
    exact ⟨congrArg some hzext, congrArg some (hsext.trans hzext.symm)⟩
  · intro h3
    rw [decodeRecord_of_slli hop h3]
    exact ⟨rfl, rfl⟩

/-! ### Words written out from the layouts (R72) -/

/-- Settles O11: the decoder run on each word. -/
theorem sampleWordsDecode : Obligations.SampleWordsDecode := by
  unfold Obligations.SampleWordsDecode
  decide

end Sys2Proof
end

section
/-! PROOFS. The statements of 40_cycle.md: a cycle is the `exec` of the instruction at the pc (R120 to R124), and the nop
at address 0 of a machine just created (R129). -/

open Sys2Proof.Claims

namespace Sys2Proof.Machine

variable {s t : State} {a raw : Word} {cfg : Config}

/-! ### The instruction at the pc (R120 to R124) -/

/-- Settles O47: the fetch in bounds answers the word of the four bytes, and `step_eq_exec` runs what it decodes to. -/
theorem stepRunsTheDecodedInstruction : Obligations.StepRunsTheDecodedInstruction := by
  intro s i hbound hdecode
  have hfetch : s.fetch = .ok (wordAt s s.pc.toNat) := fetch_eq_ok_iff.2 ⟨hbound, rfl⟩
  exact step_eq_exec hfetch hdecode

/-! ### The nop (R129) -/

/-- A word the loader placed at the pc is the word fetched (R274); memory in canonical form. -/
theorem fetch_of_loadWord (hm : s.mem.wf) (h : s.loadWord a raw = .ok t) (hpc : s.pc = a) : t.fetch = .ok raw := by
  subst hpc
  obtain ⟨hbound, rfl⟩ := memWrite_eq_ok_iff.1 h
  exact memRead_eq_ok_iff.2 ⟨hbound, readLE_writeLE_word s.mem s.pc.toNat raw hm⟩

/-- The loader touches memory alone: the pc stays. -/
theorem loadWord_pc (h : s.loadWord a raw = .ok t) : t.pc = s.pc := by
  obtain ⟨-, rfl⟩ := memWrite_eq_ok_iff.1 h
  exact setMem_pc s _

/-- The loader touches memory alone: every register stays. -/
theorem loadWord_readReg (h : s.loadWord a raw = .ok t) (r : RegIdx) : t.readReg r = s.readReg r := by
  obtain ⟨-, rfl⟩ := memWrite_eq_ok_iff.1 h
  exact readReg_setMem s r _

/-- A created state lists no cell, whatever its configuration. -/
theorem created_mem_wf : (State.created cfg).mem.wf := ⟨.nil, List.forall_mem_nil _⟩

/-- An ADDI into register 0 only falls through. -/
theorem exec_addi_zero (rs1 : RegIdx) (imm : BitVec 12) (s : State) :
    exec (.addi 0#5 rs1 imm) s = .next s.advance := by
  change s.finish 0#5 _ = _
  rw [finish_eq, writeReg_zero]

/-- Settles O48: the loaded nop is the word fetched, and it decodes to an ADDI into register 0. -/
theorem nopScenario : Obligations.NopScenario := by
  intro cfg hsize hentry
  obtain ⟨s, hload⟩ : ∃ s, (State.created cfg).loadWord 0#32 0x00000013#32 = .ok s :=
    ⟨_, memWrite_ok 0#32 .word _ hsize⟩
  have hpc : s.pc = 0#32 := (loadWord_pc hload).trans hentry
  have hfetch : s.fetch = .ok 0x00000013#32 := fetch_of_loadWord created_mem_wf hload hentry
  have hword : wordAt s 0 = 0x00000013#32 := by
    obtain ⟨-, h⟩ := fetch_eq_ok_iff.1 hfetch
    rwa [hpc] at h
  have hdecode : decode 0x00000013#32 = .ok (.addi 0#5 0#5 0#12) := by decide
  have hstep : step s = .next s.advance := (step_eq_exec hfetch hdecode).trans (exec_addi_zero 0#5 0#12 s)
  have hregs (r : RegIdx) : s.advance.readReg r = 0#32 := by
    rw [readReg_advance, loadWord_readReg hload, readReg_created]
  exact ⟨s, s.advance, hload, hpc, hword, hstep, hregs, by rw [advance_pc, hpc]; rfl⟩

end Sys2Proof.Machine
end

section
/-! PROOFS. The statements of 41_jumps_branches.md: the two jumps that link (R141, R142) and the six conditional branches
(R143 to R149). Where each goes was settled with R27; what is left is that it completes and what it leaves unchanged. -/

open Sys2Proof.Claims

namespace Sys2Proof

variable {raw : Word}

/-! ### The words of the branches (R144 to R149) -/

theorem decode_beq (hop : opcodeOf raw = opBRANCH) (h3 : funct3Of raw = 0#3) :
    decode raw = .ok (.beq (rs1Of raw) (rs2Of raw) (immBOf raw)) := by rw [decode_branch hop, decodeBranch, h3]; rfl
theorem decode_bne (hop : opcodeOf raw = opBRANCH) (h3 : funct3Of raw = 1#3) :
    decode raw = .ok (.bne (rs1Of raw) (rs2Of raw) (immBOf raw)) := by rw [decode_branch hop, decodeBranch, h3]; rfl
theorem decode_blt (hop : opcodeOf raw = opBRANCH) (h3 : funct3Of raw = 4#3) :
    decode raw = .ok (.blt (rs1Of raw) (rs2Of raw) (immBOf raw)) := by rw [decode_branch hop, decodeBranch, h3]; rfl
theorem decode_bge (hop : opcodeOf raw = opBRANCH) (h3 : funct3Of raw = 5#3) :
    decode raw = .ok (.bge (rs1Of raw) (rs2Of raw) (immBOf raw)) := by rw [decode_branch hop, decodeBranch, h3]; rfl
theorem decode_bltu (hop : opcodeOf raw = opBRANCH) (h3 : funct3Of raw = 6#3) :
    decode raw = .ok (.bltu (rs1Of raw) (rs2Of raw) (immBOf raw)) := by rw [decode_branch hop, decodeBranch, h3]; rfl
theorem decode_bgeu (hop : opcodeOf raw = opBRANCH) (h3 : funct3Of raw = 7#3) :
    decode raw = .ok (.bgeu (rs1Of raw) (rs2Of raw) (immBOf raw)) := by rw [decode_branch hop, decodeBranch, h3]; rfl

end Sys2Proof

namespace Sys2Proof.Machine

variable {s t : State} {i : Instr} {holds : Word → Prop}

/-! ### The jumps (R141, R142) -/

/-- A register write and a new pc change one register, and register 0 not at all. -/
theorem writesOnly_writeReg_setPc (rd : RegIdx) (v target : Word) (hv : holds v) :
    WritesOnly s ((s.writeReg rd v).setPc target) rd holds := by
  refine ⟨fun hrd => ?_, readReg_zero _, fun r hr => ?_, fun a => ?_, ?_⟩
  · rwa [readReg_setPc, readReg_writeReg_same s rd v hrd]
  · rw [readReg_setPc, readReg_writeReg_other s rd r v hr]
  · rw [setPc_mem, writeReg_mem]
  · rw [setPc_cfg, writeReg_cfg]

/-- A jump that completes has written the link, `ipc + 4` modulo 2^32, and nothing else. -/
theorem jump_next_writesOnly {rd : RegIdx} {target : Word} (h : s.jump rd target = .next t) :
    WritesOnly s t rd fun v => v.toNat = (s.pc.toNat + 4) % 2 ^ 32 := by
  cases h
  exact writesOnly_writeReg_setPc rd s.npc target (BitVec.toNat_add s.pc 4#32)

/-- Settles O33: JAL is a jump to the pc-relative target. -/
theorem jumpAndLink : Obligations.JumpAndLink := by
  refine ⟨fun raw => decode_jal, fun s rd imm => ?_⟩
  have hjump := jump_eq (s := s) rd (s.relTarget imm)
  exact ⟨_, hjump, pcIs_of_relTarget (by decide) (jump_next_pc hjump), jump_next_writesOnly hjump⟩

/-- Settles O34: JALR is a jump to the target computed from the state before the link is written. -/
theorem jumpAndLinkRegister : Obligations.JumpAndLinkRegister := by
  refine ⟨fun raw => decode_jalr, fun s f3 rd rs1 imm => ?_⟩
  have hjump := jump_eq (s := s) rd (s.jalrTarget rs1 imm)
  exact ⟨_, hjump, toNat_pc_of_jalrTarget (jump_next_pc hjump), jump_next_writesOnly hjump⟩

/-! ### The branches (R143 to R149) -/

/-- An instruction that tests a relation ends its cycle as a branch. -/
theorem exec_eq_branch {p : Prop × Int} (hb : branchOf i s = some p) :
    ∃ taken target, exec i s = s.branch taken target := by
  cases i with
  | beq | bne | blt | bge | bltu | bgeu => exact ⟨_, _, rfl⟩
  | _ => cases hb

/-- A conditional branch completes, goes where its relation says and changes nothing else (R143). -/
theorem branches_of_branchOf {relation : Prop} {offset : Int} (hb : branchOf i s = some (relation, offset)) :
    Branches i s relation (s.pc.toNat + adj s + offset) := by
  obtain ⟨taken, target, hexec⟩ := exec_eq_branch hb
  have hnext := branch_eq (s := s) taken target
  obtain ⟨hgoes, hfalls⟩ := exec_branch_next_pc (hexec.trans hnext) hb
  exact ⟨_, hexec.trans hnext, hgoes, hfalls, fun r => branch_next_readReg hnext,
    fun a => by rw [branch_next_mem hnext], setPc_cfg s _⟩

/-- Settles O35: BEQ is the branch on equality, and BNE its negation (`branchOf`). -/
theorem branchOnEquality : Obligations.BranchOnEquality :=
  ⟨fun _ hop => ⟨decode_beq hop, decode_bne hop⟩,
    fun _ _ _ _ => ⟨branches_of_branchOf rfl, branches_of_branchOf rfl⟩⟩

/-- Settles O36: BLT is the branch on the signed order, and BGE its negation (`branchOf`). -/
theorem branchOnSignedOrder : Obligations.BranchOnSignedOrder :=
  ⟨fun _ hop => ⟨decode_blt hop, decode_bge hop⟩,
    fun _ _ _ _ => ⟨branches_of_branchOf rfl, branches_of_branchOf rfl⟩⟩

/-- Settles O37: BLTU is the branch on the unsigned order, and BGEU its negation (`branchOf`). -/
theorem branchOnUnsignedOrder : Obligations.BranchOnUnsignedOrder :=
  ⟨fun _ hop => ⟨decode_bltu hop, decode_bgeu hop⟩,
    fun _ _ _ _ => ⟨branches_of_branchOf rfl, branches_of_branchOf rfl⟩⟩

end Sys2Proof.Machine
end

section
/-! PROOFS. The statements of 42_alu_imm.md: each of the nine operations ends its cycle in one register write and the
default advance (`computes_of_finish`), so what is left of each is the value it writes. -/

open Sys2Proof.Claims

namespace Sys2Proof

variable {raw : Word}

/-! ### The words of the immediate ALU operations (R101) -/

theorem decode_addi (hop : opcodeOf raw = opARITHIMM) (h3 : funct3Of raw = 0#3) :
    decode raw = .ok (.addi (rdOf raw) (rs1Of raw) (immIOf raw)) := by
  rw [decode_arithImm hop, decodeArithImm, h3]; rfl
theorem decode_slli (hop : opcodeOf raw = opARITHIMM) (h3 : funct3Of raw = 1#3) :
    decode raw = .ok (.slli (rdOf raw) (rs1Of raw) (immIOf raw)) := by
  rw [decode_arithImm hop, decodeArithImm, h3]; rfl
theorem decode_slti (hop : opcodeOf raw = opARITHIMM) (h3 : funct3Of raw = 2#3) :
    decode raw = .ok (.slti (rdOf raw) (rs1Of raw) (immIOf raw)) := by
  rw [decode_arithImm hop, decodeArithImm, h3]; rfl
theorem decode_sltiu (hop : opcodeOf raw = opARITHIMM) (h3 : funct3Of raw = 3#3) :
    decode raw = .ok (.sltiu (rdOf raw) (rs1Of raw) (immIOf raw)) := by
  rw [decode_arithImm hop, decodeArithImm, h3]; rfl
theorem decode_xori (hop : opcodeOf raw = opARITHIMM) (h3 : funct3Of raw = 4#3) :
    decode raw = .ok (.xori (rdOf raw) (rs1Of raw) (immIOf raw)) := by
  rw [decode_arithImm hop, decodeArithImm, h3]; rfl
theorem decode_ori (hop : opcodeOf raw = opARITHIMM) (h3 : funct3Of raw = 6#3) :
    decode raw = .ok (.ori (rdOf raw) (rs1Of raw) (immIOf raw)) := by
  rw [decode_arithImm hop, decodeArithImm, h3]; rfl
theorem decode_andi (hop : opcodeOf raw = opARITHIMM) (h3 : funct3Of raw = 7#3) :
    decode raw = .ok (.andi (rdOf raw) (rs1Of raw) (immIOf raw)) := by
  rw [decode_arithImm hop, decodeArithImm, h3]; rfl

theorem decode_srli (hop : opcodeOf raw = opARITHIMM) (h3 : funct3Of raw = 5#3) (h7 : funct7Of raw = 0#7) :
    decode raw = .ok (.srli (rdOf raw) (rs1Of raw) (shamtOf raw)) := by
  rw [decode_arithImm hop, decodeArithImm, h3, h7]; rfl

/-- Every nonzero `funct7` makes the right shift arithmetic. -/
theorem decode_srai (hop : opcodeOf raw = opARITHIMM) (h3 : funct3Of raw = 5#3) (h7 : funct7Of raw ≠ 0#7) :
    decode raw = .ok (.srai (rdOf raw) (rs1Of raw) (shamtOf raw)) := by
  rw [decode_arithImm hop, decodeArithImm, h3, if_neg h7]; rfl

/-- The low five bits of the I immediate are `raw[24:20]` (R167). -/
theorem toNat_immIOf_mod_32 (raw : Word) : (immIOf raw).toNat % 32 = raw.toNat / 2 ^ 20 % 32 := by
  rw [immIOf, toNat_slice]
  exact Nat.mod_mod_of_dvd _ (by decide)

/-! ### The sign-extended immediate as an operand (R160) -/

/-- As an unsigned number, a sign-extended field is its signed reading modulo 2^32. -/
theorem toNat_sext {n : Nat} (v : BitVec n) (h : n ≤ 32) : ((sext v).toNat : Int) = signedField v % 2 ^ 32 := by
  simpa using Machine.toNat_add_sext 0#32 v h

/-- Bits 31 down to 11 of a sign-extended immediate are its sign. -/
theorem getLsbD_sext {k : Nat} (imm : BitVec 12) (hk : k < 32) : (sext imm).getLsbD k = imm.getLsbD (min k 11) := by
  rw [sext, BitVec.getLsbD_signExtend, decide_eq_true hk, Bool.true_and]
  split_ifs with hlow
  · rw [min_eq_left (by omega)]
  · rw [min_eq_right (by omega), BitVec.msb_eq_getLsbD_last]

end Sys2Proof

namespace Sys2Proof.Machine

variable {s : State} {i : Instr} {rd : RegIdx} {v : Word} {holds : Word → Prop}

/-! ### One register written, and the default advance (R160) -/

/-- An instruction that ends its cycle by writing `rd` computes the value it writes, whatever is claimed of that value. -/
theorem computes_of_finish (h : exec i s = s.finish rd v) (hv : holds v) : Computes i s rd holds := by
  rw [finish_eq] at h
  exact ⟨_, h, finish_next_fallsThrough (finish_eq rd v), writesOnly_writeReg_setPc rd v _ hv⟩

/-! ### Arithmetic and comparison (R161 to R163) -/

/-- Settles O26: the sum of a word and a sign-extended field. -/
theorem addImmediateWraps : Obligations.AddImmediateWraps :=
  ⟨fun _ => decode_addi, fun s _ rs1 imm => computes_of_finish rfl (toNat_add_sext (s.readReg rs1) imm (by decide))⟩

/-- Settles O27: both sides of the comparison are signed readings. -/
theorem setLessThanImmediate : Obligations.SetLessThanImmediate := by
  refine ⟨fun _ => decode_slti, fun s rd rs1 imm => computes_of_finish rfl ?_⟩
  have himm : (immOperand imm).toInt = signedField imm := toInt_sext imm (by decide)
  simp only [boolWord_toNat, condLt_iff, himm]

/-- Settles O28: the immediate's sign extension is compared as an unsigned number. -/
theorem setLessThanImmediateUnsigned : Obligations.SetLessThanImmediateUnsigned := by
  refine ⟨fun _ => decode_sltiu, fun s rd rs1 imm => computes_of_finish rfl ?_⟩
  have himm : ((immOperand imm).toNat : Int) = signedField imm % 2 ^ 32 := toNat_sext imm (by decide)
  simp only [boolWord_toNat, condLtu_iff, ← himm, Int.ofNat_lt]

/-! ### Logic (R164 to R166) -/

/-- Settles O29: each operation acts bit by bit, and `getLsbD_sext` says what the operand's bits are. -/
theorem immediateLogicIsBitwise : Obligations.ImmediateLogicIsBitwise := by
  refine ⟨fun _ hop => ⟨decode_xori hop, decode_ori hop, decode_andi hop⟩,
    fun s rd rs1 imm => computes_of_finish rfl fun k hk => ?_, fun s rd rs1 imm => computes_of_finish rfl fun k hk => ?_,
    fun s rd rs1 imm => computes_of_finish rfl fun k hk => ?_⟩
  · rw [BitVec.getLsbD_xor, immOperand, getLsbD_sext imm hk]
  · rw [BitVec.getLsbD_or, immOperand, getLsbD_sext imm hk]
  · rw [BitVec.getLsbD_and, immOperand, getLsbD_sext imm hk]

/-! ### Shifts (R167 to R170) -/

/-- The five bits that SRLI and SRAI carry are the whole amount: the engine's mask changes nothing (R167). -/
theorem shamtOfImm_five (shamt : BitVec 5) : shamtOfImm shamt = shamt.toNat := by
  rw [shamtOfImm_eq]
  exact Nat.mod_eq_of_lt shamt.isLt

/-- Settles O30: a left shift multiplies, and a right shift divides and rounds down, by 2 to the power of the amount. -/
theorem immediateShiftsUseFiveBits : Obligations.ImmediateShiftsUseFiveBits := by
  refine ⟨fun raw hop => ⟨fun h3 => ⟨decode_slli hop h3, toNat_immIOf_mod_32 raw⟩, decode_srli hop, decode_srai hop⟩,
    fun s rd rs1 imm => computes_of_finish rfl ?_, fun s rd rs1 shamt => computes_of_finish rfl ?_,
    fun s rd rs1 shamt => computes_of_finish rfl ?_⟩
  · rw [shamtOfImm_eq, BitVec.toNat_shiftLeft, Nat.shiftLeft_eq]
  · rw [shamtOfImm_five, BitVec.toNat_ushiftRight, Nat.shiftRight_eq_div_pow]
  · rw [shamtOfImm_five, BitVec.toInt_sshiftRight, Int.shiftRight_eq_div_pow]
    norm_cast

end Sys2Proof.Machine
end

section
/-! PROOFS. The statements of 43_alu_reg.md: each of the ten operations ends its cycle in one register write and the
default advance (`computes_of_finish`), so what is left of each is the value it writes. -/

open Sys2Proof.Claims

namespace Sys2Proof

variable {raw : Word}

/-! ### The words of the register ALU operations (R102) -/

theorem decode_sll (hop : opcodeOf raw = opARITH) (h3 : funct3Of raw = 1#3) :
    decode raw = .ok (.sll (funct7Of raw) (rdOf raw) (rs1Of raw) (rs2Of raw)) := by
  rw [decode_arith hop, decodeArith, h3]; rfl
theorem decode_slt (hop : opcodeOf raw = opARITH) (h3 : funct3Of raw = 2#3) :
    decode raw = .ok (.slt (funct7Of raw) (rdOf raw) (rs1Of raw) (rs2Of raw)) := by
  rw [decode_arith hop, decodeArith, h3]; rfl
theorem decode_sltu (hop : opcodeOf raw = opARITH) (h3 : funct3Of raw = 3#3) :
    decode raw = .ok (.sltu (funct7Of raw) (rdOf raw) (rs1Of raw) (rs2Of raw)) := by
  rw [decode_arith hop, decodeArith, h3]; rfl
theorem decode_xor (hop : opcodeOf raw = opARITH) (h3 : funct3Of raw = 4#3) :
    decode raw = .ok (.xor (funct7Of raw) (rdOf raw) (rs1Of raw) (rs2Of raw)) := by
  rw [decode_arith hop, decodeArith, h3]; rfl
theorem decode_or (hop : opcodeOf raw = opARITH) (h3 : funct3Of raw = 6#3) :
    decode raw = .ok (.or (funct7Of raw) (rdOf raw) (rs1Of raw) (rs2Of raw)) := by
  rw [decode_arith hop, decodeArith, h3]; rfl
theorem decode_and (hop : opcodeOf raw = opARITH) (h3 : funct3Of raw = 7#3) :
    decode raw = .ok (.and (funct7Of raw) (rdOf raw) (rs1Of raw) (rs2Of raw)) := by
  rw [decode_arith hop, decodeArith, h3]; rfl

theorem decode_add (hop : opcodeOf raw = opARITH) (h3 : funct3Of raw = 0#3) (h7 : funct7Of raw = 0#7) :
    decode raw = .ok (.add (rdOf raw) (rs1Of raw) (rs2Of raw)) := by
  rw [decode_arith hop, decodeArith, h3, h7]; rfl
theorem decode_srl (hop : opcodeOf raw = opARITH) (h3 : funct3Of raw = 5#3) (h7 : funct7Of raw = 0#7) :
    decode raw = .ok (.srl (rdOf raw) (rs1Of raw) (rs2Of raw)) := by
  rw [decode_arith hop, decodeArith, h3, h7]; rfl

/-- Every nonzero `funct7` makes the sum a difference. -/
theorem decode_sub (hop : opcodeOf raw = opARITH) (h3 : funct3Of raw = 0#3) (h7 : funct7Of raw ≠ 0#7) :
    decode raw = .ok (.sub (funct7Of raw) (rdOf raw) (rs1Of raw) (rs2Of raw)) := by
  rw [decode_arith hop, decodeArith, h3]; exact congrArg _ (if_neg h7)

/-- Every nonzero `funct7` makes the right shift arithmetic. -/
theorem decode_sra (hop : opcodeOf raw = opARITH) (h3 : funct3Of raw = 5#3) (h7 : funct7Of raw ≠ 0#7) :
    decode raw = .ok (.sra (funct7Of raw) (rdOf raw) (rs1Of raw) (rs2Of raw)) := by
  rw [decode_arith hop, decodeArith, h3]; exact congrArg _ (if_neg h7)

end Sys2Proof

namespace Sys2Proof.Machine

variable (a b : Word)

/-! ### Sums and differences (R181, R182) -/

/-- The difference of two words is the difference of their numbers modulo 2^32: it borrows without a report (R182). -/
theorem toNat_sub_emod : ((a - b).toNat : Int) = (a.toNat - b.toNat : Int) % 2 ^ 32 := by
  rw [BitVec.toNat_sub]
  omega

/-- Settles O22: the bits of a sum serve both readings. -/
theorem addAndSubWrap : Obligations.AddAndSubWrap :=
  ⟨fun _ hop h3 => ⟨decode_add hop h3, decode_sub hop h3⟩,
    fun _ _ _ _ => computes_of_finish rfl ⟨BitVec.toNat_add _ _, BitVec.toInt_add _ _⟩,
    fun _ _ _ _ _ => computes_of_finish rfl (toNat_sub_emod _ _)⟩

/-! ### Shifts (R183, R187, R188) -/

/-- A left shift multiplies by 2 to the power of the amount. -/
theorem toNat_shiftLeft_shamtOfReg : (a <<< shamtOfReg b).toNat = a.toNat * 2 ^ (b.toNat % 32) % 2 ^ 32 := by
  rw [shamtOfReg_eq, BitVec.toNat_shiftLeft, Nat.shiftLeft_eq]

/-- A logical right shift divides the number by 2 to the power of the amount. -/
theorem toNat_ushiftRight_shamtOfReg : (a >>> shamtOfReg b).toNat = a.toNat / 2 ^ (b.toNat % 32) := by
  rw [shamtOfReg_eq, BitVec.toNat_ushiftRight, Nat.shiftRight_eq_div_pow]

/-- An arithmetic right shift divides the signed reading and rounds down: the copies of bit 31 keep the sign. -/
theorem toInt_sshiftRight_shamtOfReg : (a.sshiftRight (shamtOfReg b)).toInt = a.toInt / 2 ^ (b.toNat % 32) := by
  rw [shamtOfReg_eq, BitVec.toInt_sshiftRight, Int.shiftRight_eq_div_pow]
  norm_cast

/-- Settles O23: the value of each shift, with the low five bits of a register as its amount. -/
theorem registerShiftsUseFiveBits : Obligations.RegisterShiftsUseFiveBits :=
  ⟨fun _ hop => ⟨decode_sll hop, decode_srl hop, decode_sra hop⟩,
    fun _ _ _ _ _ => computes_of_finish rfl (toNat_shiftLeft_shamtOfReg _ _),
    fun _ _ _ _ => computes_of_finish rfl (toNat_ushiftRight_shamtOfReg _ _),
    fun _ _ _ _ _ => computes_of_finish rfl (toInt_sshiftRight_shamtOfReg _ _)⟩

/-! ### Comparisons (R184, R185) -/

theorem toNat_boolWord_condLt : (boolWord (condLt a b)).toNat = if a.toInt < b.toInt then 1 else 0 := by
  simp only [boolWord_toNat, condLt_iff]

theorem toNat_boolWord_condLtu : (boolWord (condLtu a b)).toNat = if a.toNat < b.toNat then 1 else 0 := by
  simp only [boolWord_toNat, condLtu_iff]

/-- Settles O24: SLT compares the signed readings, SLTU the unsigned ones. -/
theorem setLessThanWritesOneOrZero : Obligations.SetLessThanWritesOneOrZero :=
  ⟨fun _ hop => ⟨decode_slt hop, decode_sltu hop⟩,
    fun _ _ _ _ _ => computes_of_finish rfl (toNat_boolWord_condLt _ _),
    fun _ _ _ _ _ => computes_of_finish rfl (toNat_boolWord_condLtu _ _)⟩

/-! ### Logic (R186, R189, R190) -/

/-- Settles O25: each operation acts on the two bits at one position. -/
theorem registerLogicIsBitwise : Obligations.RegisterLogicIsBitwise :=
  ⟨fun _ hop => ⟨decode_xor hop, decode_or hop, decode_and hop⟩,
    fun _ _ _ _ _ => computes_of_finish rfl fun _ _ => BitVec.getLsbD_xor,
    fun _ _ _ _ _ => computes_of_finish rfl fun _ _ => BitVec.getLsbD_or,
    fun _ _ _ _ _ => computes_of_finish rfl fun _ _ => BitVec.getLsbD_and⟩

end Sys2Proof.Machine
end

section
/-! PROOFS. The statements of 44_loads.md: in bounds each of the five loads ends its cycle in one register write and the
default advance (`computes_of_load`), so what is left of each is the value it writes, and that is the extension of a
little-endian read. -/

open Sys2Proof.Claims

namespace Sys2Proof

variable {raw : Word}

/-! ### The words of the loads (R99) -/

theorem decode_lb (hop : opcodeOf raw = opLOAD) (h3 : funct3Of raw = 0#3) :
    decode raw = .ok (.lb (rdOf raw) (rs1Of raw) (immIOf raw)) := by rw [decode_load hop, decodeLoad, h3]; rfl
theorem decode_lh (hop : opcodeOf raw = opLOAD) (h3 : funct3Of raw = 1#3) :
    decode raw = .ok (.lh (rdOf raw) (rs1Of raw) (immIOf raw)) := by rw [decode_load hop, decodeLoad, h3]; rfl
theorem decode_lw (hop : opcodeOf raw = opLOAD) (h3 : funct3Of raw = 2#3) :
    decode raw = .ok (.lw (rdOf raw) (rs1Of raw) (immIOf raw)) := by rw [decode_load hop, decodeLoad, h3]; rfl
theorem decode_lbu (hop : opcodeOf raw = opLOAD) (h3 : funct3Of raw = 4#3) :
    decode raw = .ok (.lbu (rdOf raw) (rs1Of raw) (immIOf raw)) := by rw [decode_load hop, decodeLoad, h3]; rfl
theorem decode_lhu (hop : opcodeOf raw = opLOAD) (h3 : funct3Of raw = 5#3) :
    decode raw = .ok (.lhu (rdOf raw) (rs1Of raw) (immIOf raw)) := by rw [decode_load hop, decodeLoad, h3]; rfl

end Sys2Proof

namespace Sys2Proof.Machine

variable {s : State} {i : Instr} {rd : RegIdx} {a : Word} {w : Width} {ext : Word → Word} {holds : Word → Prop}

/-! ### One access in bounds, one register written (R200) -/

/-- A load in bounds computes the extension of the value read, whatever is claimed of that value. -/
theorem computes_of_load (h : exec i s = s.load rd a w ext) (hbound : a.toNat + w.bytes ≤ s.cfg.memSize)
    (hv : holds (ext (s.mem.readLE a.toNat w.bytes))) : Computes i s rd holds := by
  rw [load_eq, if_pos hbound] at h
  exact computes_of_finish h hv

/-! ### The values loaded (R201 to R205) -/

section values

variable (m : Memory) (addr : Nat)

/-- LB reads the byte as signed. -/
theorem toInt_extByte_readLE : (extByte (m.readLE addr 1)).toInt = signedField (m.readByte addr) := by
  rw [extByte, readLE_one, setWidth_zext _ (by decide), toInt_sext _ (by decide)]

/-- LBU reads the byte as unsigned. -/
theorem toNat_extByteU_readLE : (extByteU (m.readLE addr 1)).toNat = (m.readByte addr).toNat := by
  rw [extByteU, readLE_one, setWidth_zext _ (by decide), toNat_zext _ (by decide)]

/-- LH reads the halfword as signed, the byte at the lower address below the other. -/
theorem toInt_extHalf_readLE :
    (extHalf (m.readLE addr 2)).toInt = signedField (m.readByte (addr + 1) ++ m.readByte addr) := by
  rw [extHalf, readLE_two, setWidth_zext _ (by decide), toInt_sext _ (by decide)]

/-- LHU reads the halfword as unsigned: a two-byte read has nothing above bit 15 to clear. -/
theorem toNat_extHalfU_readLE : (extHalfU (m.readLE addr 2)).toNat =
    (m.readByte addr).toNat + 2 ^ 8 * (m.readByte (addr + 1)).toNat := by
  have hkept : extHalfU (m.readLE addr 2) = m.readLE addr 2 := by
    rw [extHalfU, readLE_two, setWidth_zext _ (by decide)]
  rw [hkept, toNat_readLE m addr 2 (by decide)]
  simp only [valueAt, Nat.add_zero]
  omega

/-- LW takes the little-endian word as it is. -/
theorem toNat_extWord_readLE : (extWord (m.readLE addr 4)).toNat =
    (m.readByte addr).toNat + 2 ^ 8 * (m.readByte (addr + 1)).toNat + 2 ^ 16 * (m.readByte (addr + 2)).toNat +
      2 ^ 24 * (m.readByte (addr + 3)).toNat := by
  rw [extWord, toNat_readLE m addr 4 (by decide)]
  simp only [valueAt, Nat.add_zero]
  omega

end values

/-- Settles O38: a one-byte load, and both readings of its byte. -/
theorem byteLoads : Obligations.ByteLoads := by
  refine ⟨fun _ hop => ⟨decode_lb hop, decode_lbu hop⟩, ?_⟩
  rintro s rd rs1 imm _ rfl hbound
  exact ⟨effectiveAddressWraps s rs1 imm, computes_of_load rfl hbound (toInt_extByte_readLE _ _),
    computes_of_load rfl hbound (toNat_extByteU_readLE _ _)⟩

/-- Settles O39: a two-byte load, and both readings of its halfword. -/
theorem halfwordLoads : Obligations.HalfwordLoads := by
  refine ⟨fun _ hop => ⟨decode_lh hop, decode_lhu hop⟩, ?_⟩
  rintro s rd rs1 imm _ rfl hbound
  exact ⟨effectiveAddressWraps s rs1 imm, computes_of_load rfl hbound (toInt_extHalf_readLE _ _),
    computes_of_load rfl hbound (toNat_extHalfU_readLE _ _)⟩

/-- Settles O40: a four-byte load, and the number of its word. -/
theorem wordLoad : Obligations.WordLoad := by
  refine ⟨fun _ => decode_lw, ?_⟩
  rintro s rd rs1 imm _ rfl hbound
  exact ⟨effectiveAddressWraps s rs1 imm, computes_of_load rfl hbound (toNat_extWord_readLE _ _)⟩

end Sys2Proof.Machine
end

section
/-! PROOFS. The statement of 45_stores.md: in bounds each of the three stores ends its cycle in one memory write and the
default advance (`stores_of_store`), so what is left of each is its width. -/

open Sys2Proof.Claims

namespace Sys2Proof

variable {raw : Word}

/-! ### The words of the stores (R100) -/

theorem decode_sb (hop : opcodeOf raw = opSTORE) (h3 : funct3Of raw = 0#3) :
    decode raw = .ok (.sb (rs1Of raw) (rs2Of raw) (immSOf raw)) := by rw [decode_store hop, decodeStore, h3]; rfl
theorem decode_sh (hop : opcodeOf raw = opSTORE) (h3 : funct3Of raw = 1#3) :
    decode raw = .ok (.sh (rs1Of raw) (rs2Of raw) (immSOf raw)) := by rw [decode_store hop, decodeStore, h3]; rfl
theorem decode_sw (hop : opcodeOf raw = opSTORE) (h3 : funct3Of raw = 2#3) :
    decode raw = .ok (.sw (rs1Of raw) (rs2Of raw) (immSOf raw)) := by rw [decode_store hop, decodeStore, h3]; rfl

end Sys2Proof

namespace Sys2Proof.Machine

variable {s : State} {i : Instr} {rs2 : RegIdx} {a : Word} {w : Width}

/-! ### One access in bounds, its bytes written (R210) -/

/-- An instruction that ends its cycle as a store of `x[rs2]` sets, in bounds, the bytes of its access and nothing else. -/
theorem stores_of_store (h : exec i s = s.store a w (s.readReg rs2)) : Stores i s rs2 a.toNat w.bytes := by
  intro hbound
  have hnext := (store_next_iff (v := s.readReg rs2)).2 ⟨hbound, rfl⟩
  refine ⟨_, h.trans hnext, store_next_fallsThrough hnext, fun _ => store_next_readReg hnext, rfl,
    fun hm k hk => ?_, fun b hb => readByte_writeLE_outside w.bytes s.mem a.toNat b _ hb⟩
  rw [advance_mem, memWrite_readByte hm (memWrite_ok a w _ hbound) hk]
  exact toNat_slice (s.readReg rs2) (8 * k) 8

/-- Settles O41: three stores of one register, one, two and four bytes wide. -/
theorem storesWriteTheLowBytes : Obligations.StoresWriteTheLowBytes := by
  refine ⟨fun _ hop => ⟨decode_sb hop, decode_sh hop, decode_sw hop⟩, ?_⟩
  rintro s rs1 rs2 imm _ rfl
  exact ⟨effectiveAddressWraps s rs1 imm, stores_of_store (w := .byte) rfl, stores_of_store (w := .half) rfl,
    stores_of_store (w := .word) rfl⟩

end Sys2Proof.Machine
end

section
/-! PROOFS. The statements of 46_upper_imm.md: both operations end their cycle in one register write and the default
advance (`computes_of_finish`), so what is left of each is the value it writes. -/

open Sys2Proof.Claims

namespace Sys2Proof.Machine

/-- Settles O31: the value written is the upper immediate itself. -/
theorem loadUpperImmediate : Obligations.LoadUpperImmediate :=
  ⟨fun _ => decode_lui, fun _ _ imm20 => computes_of_finish rfl (toNat_immU imm20)⟩

/-- Settles O32: the base's own reduction modulo 2^32 is absorbed by that of the sum. -/
theorem addUpperImmediateToPc : Obligations.AddUpperImmediateToPc := by
  refine ⟨fun _ => decode_auipc, fun s rd imm20 => computes_of_finish rfl ?_⟩
  calc ((s.base + immU imm20).toNat : Int)
      = (s.base.toNat + imm20.toNat * 2 ^ 12) % 2 ^ 32 := by rw [BitVec.toNat_add, toNat_immU]; norm_cast
    _ = (s.pc.toNat + adj s + imm20.toNat * 2 ^ 12) % 2 ^ 32 := by rw [toNat_base, Int.emod_add_emod]

end Sys2Proof.Machine
end

section
/-! PROOFS. The two round trips of 30_encoding.md (sections 2 to 4): what the encoder lays out the decoder reads back, and
what the decoder reads the encoder lays out again. -/

namespace Sys2Proof

/-! ### Decoding what was encoded -/

/-- Settles O9: the opcode of the layout selects the group, its `funct3` and `funct7` the operation inside it, and every
operand is the field it was laid out in. -/
theorem decodeEncodeRoundTrip : Obligations.DecodeEncodeRoundTrip := by
  intro i hwf
  cases i with
  | lui => rw [encode, decode_lui (opcodeOf_wordU ..)]; simp
  | auipc => rw [encode, decode_auipc (opcodeOf_wordU ..)]; simp
  | jal rd imm =>
    have heven : imm.getLsbD 0 = false := by simpa [Instr.wf] using hwf
    rw [encode, decode_jal (opcodeOf_wordJ ..), immJOf_wordJ _ _ _ heven, rdOf_wordJ]
  | jalr => rw [encode, decode_jalr (opcodeOf_wordI ..)]; simp
  | beq _ _ imm | bne _ _ imm | blt _ _ imm | bge _ _ imm | bltu _ _ imm | bgeu _ _ imm =>
    have heven : imm.getLsbD 0 = false := by simpa [Instr.wf] using hwf
    rw [encode, decode_branch (opcodeOf_wordB ..), decodeBranch, immBOf_wordB _ _ _ _ _ heven]
    simp
  | lb | lh | lw | lbu | lhu => rw [encode, decode_load (opcodeOf_wordI ..), decodeLoad]; simp
  | sb | sh | sw => rw [encode, decode_store (opcodeOf_wordS ..), decodeStore]; simp
  | addi | slti | sltiu | xori | ori | andi | slli =>
    rw [encode, decode_arithImm (opcodeOf_wordI ..), decodeArithImm]; simp
  | srli | srai => rw [encode, decode_arithImm (opcodeOf_wordR ..), decodeArithImm]; simp
  | add | sll | slt | sltu | xor | srl | or | and => rw [encode, decode_arith (opcodeOf_wordR ..), decodeArith]; simp
  | sub f7 | sra f7 =>
    have hnonzero : f7 ≠ 0#7 := by simpa [Instr.wf] using hwf
    rw [encode, decode_arith (opcodeOf_wordR ..), decodeArith]
    simp [hnonzero]
  | fence | fencei => rw [encode, decode_fence (opcodeOf_wordI ..), decodeFence]; simp

/-! ### Encoding what was decoded -/

variable {raw : Word} {i : Instr}

/-- The word the encoder writes for an instruction read from `raw`: `raw` itself, but with `raw[31:25]` of SRAI as 0x20
(R74, R91; log entry 12). -/
def reencoded (raw : Word) (i : Instr) : Word :=
  match i with
  | .srai _ _ _ => wordR 0x20#7 (rs2Of raw) (rs1Of raw) (funct3Of raw) (rdOf raw) (opcodeOf raw)
  | _ => raw

/-- The instruction is well formed and its word is the word it was read from, as far as it keeps it. -/
def EncodesBackTo (raw : Word) (i : Instr) : Prop := i.wf = true ∧ encode i = reencoded raw i

section fields
variable {op : BitVec 7} {f3 : BitVec 3} {f7 : BitVec 7}

theorem wordR_of_fields (hop : opcodeOf raw = op) (h3 : funct3Of raw = f3) (h7 : funct7Of raw = f7) :
    wordR f7 (rs2Of raw) (rs1Of raw) f3 (rdOf raw) op = raw := by rw [← hop, ← h3, ← h7, wordR_own]

theorem wordI_of_fields (hop : opcodeOf raw = op) (h3 : funct3Of raw = f3) :
    wordI (immIOf raw) (rs1Of raw) f3 (rdOf raw) op = raw := by rw [← hop, ← h3, wordI_own]

theorem wordS_of_fields (hop : opcodeOf raw = op) (h3 : funct3Of raw = f3) :
    wordS (immSOf raw) (rs2Of raw) (rs1Of raw) f3 op = raw := by rw [← hop, ← h3, wordS_own]

theorem wordB_of_fields (hop : opcodeOf raw = op) (h3 : funct3Of raw = f3) :
    wordB (immBOf raw) (rs2Of raw) (rs1Of raw) f3 op = raw := by rw [← hop, ← h3, wordB_own]

theorem wordU_of_fields (hop : opcodeOf raw = op) : wordU (imm20Of raw) (rdOf raw) op = raw := by
  rw [← hop, wordU_own]

theorem wordJ_of_fields (hop : opcodeOf raw = op) : wordJ (immJOf raw) (rdOf raw) op = raw := by
  rw [← hop, wordJ_own]

end fields

theorem encodesBackTo_decodeBranch (hop : opcodeOf raw = opBRANCH) (h : decodeBranch raw = .ok i) :
    EncodesBackTo raw i := by
  have heven : (!(immBOf raw).getLsbD 0) = true := by rw [immBOf_even]; rfl
  rw [decodeBranch] at h
  split_ifs at h <;> cases h <;> exact ⟨heven, wordB_of_fields hop (by assumption)⟩

theorem encodesBackTo_decodeLoad (hop : opcodeOf raw = opLOAD) (h : decodeLoad raw = .ok i) : EncodesBackTo raw i := by
  rw [decodeLoad] at h
  split_ifs at h <;> cases h <;> exact ⟨rfl, wordI_of_fields hop (by assumption)⟩

theorem encodesBackTo_decodeStore (hop : opcodeOf raw = opSTORE) (h : decodeStore raw = .ok i) :
    EncodesBackTo raw i := by
  rw [decodeStore] at h
  split_ifs at h <;> cases h <;> exact ⟨rfl, wordS_of_fields hop (by assumption)⟩

theorem encodesBackTo_decodeFence (hop : opcodeOf raw = opFENCE) (h : decodeFence raw = .ok i) :
    EncodesBackTo raw i := by
  rw [decodeFence] at h
  split_ifs at h <;> cases h <;> exact ⟨rfl, wordI_of_fields hop (by assumption)⟩

/-- SRLI's zero `funct7` comes back because the decoder tested it; SRAI's does not (R101). -/
theorem encodesBackTo_decodeArithImm (hop : opcodeOf raw = opARITHIMM) : EncodesBackTo raw (decodeArithImm raw) := by
  rw [decodeArithImm]
  rcases funct3_cases (funct3Of raw) with h3 | h3 | h3 | h3 | h3 | h3 | h3 | h3 <;> rw [h3]
  iterate 5 exact ⟨rfl, wordI_of_fields hop h3⟩
  · by_cases h7 : funct7Of raw = 0#7
    · rw [h7]
      exact ⟨rfl, wordR_of_fields hop h3 h7⟩
    · have hword : wordR 0x20#7 (rs2Of raw) (rs1Of raw) 5#3 (rdOf raw) opARITHIMM =
          wordR 0x20#7 (rs2Of raw) (rs1Of raw) (funct3Of raw) (rdOf raw) (opcodeOf raw) := by rw [h3, hop]
      rw [if_neg h7]
      exact ⟨rfl, hword⟩
  all_goals exact ⟨rfl, wordI_of_fields hop h3⟩

/-- The zero `funct7` of ADD and SRL comes back because the decoder tested it, any other because it is kept (R102). -/
theorem encodesBackTo_decodeArith (hop : opcodeOf raw = opARITH) : EncodesBackTo raw (decodeArith raw) := by
  rw [decodeArith]
  by_cases h7 : funct7Of raw = 0#7
  · rcases funct3_cases (funct3Of raw) with h3 | h3 | h3 | h3 | h3 | h3 | h3 | h3 <;> rw [h3, h7] <;>
      exact ⟨rfl, wordR_of_fields hop h3 h7⟩
  · simp only [h7, if_false]
    have hnonzero : (funct7Of raw != 0#7) = true := bne_iff_ne.2 h7
    rcases funct3_cases (funct3Of raw) with h3 | h3 | h3 | h3 | h3 | h3 | h3 | h3 <;> rw [h3]
    case inl | inr.inr.inr.inr.inr.inl => exact ⟨hnonzero, wordR_of_fields hop h3 rfl⟩
    all_goals exact ⟨rfl, wordR_of_fields hop h3 rfl⟩

/-- Whatever the decoder answers encodes back, group by group of opcodes (R95). -/
theorem encodesBackTo_of_decode (h : decode raw = .ok i) : EncodesBackTo raw i := by
  by_cases hop : opcodeOf raw ∈ primaryOpcodes
  case neg => rw [decode_noSuchOpcode hop] at h; cases h
  simp only [List.mem_cons, List.not_mem_nil, or_false] at hop
  rcases hop with hop | hop | hop | hop | hop | hop | hop | hop | hop | hop
  · rw [decode_lui hop] at h
    cases h
    exact ⟨rfl, wordU_of_fields hop⟩
  · rw [decode_auipc hop] at h
    cases h
    exact ⟨rfl, wordU_of_fields hop⟩
  · rw [decode_jal hop] at h
    cases h
    exact ⟨by rw [Instr.wf, immJOf_even]; rfl, wordJ_of_fields hop⟩
  · rw [decode_jalr hop] at h
    cases h
    exact ⟨rfl, wordI_of_fields hop rfl⟩
  · exact encodesBackTo_decodeBranch hop (decode_branch hop ▸ h)
  · exact encodesBackTo_decodeLoad hop (decode_load hop ▸ h)
  · exact encodesBackTo_decodeStore hop (decode_store hop ▸ h)
  · rw [decode_arithImm hop] at h
    cases h
    exact encodesBackTo_decodeArithImm hop
  · rw [decode_arith hop] at h
    cases h
    exact encodesBackTo_decodeArith hop
  · exact encodesBackTo_decodeFence hop (decode_fence hop ▸ h)

/-- Settles O10: `encodesBackTo_of_decode`, which names the one field that is not kept. -/
theorem encodeDecodeRoundTrip : Obligations.EncodeDecodeRoundTrip :=
  fun _ _ h => encodesBackTo_of_decode h

end Sys2Proof
end

section
/-! PROOFS. The statements of 47_fence_and_undefined.md and 60_exceptions.md: which words have no case in the engine (R230
to R232), when each fatal condition is raised and what it carries (R241 to R243, R248), and that it ends the run (R240).
What an instruction answers is said once, by its data access (`exec_cases`), and what a cycle answers, by its fetch and
decode (`step_cases`). -/

open Sys2Proof.Claims

namespace Sys2Proof

variable {raw : Word} {i : Instr}

/-! ### The words with no case in the engine (R103, R104, R124) -/

theorem decode_fence_of_funct3 (hop : opcodeOf raw = opFENCE) (h3 : funct3Of raw = 0#3) :
    decode raw = .ok (.fence (rdOf raw) (rs1Of raw) (immIOf raw)) := by rw [decode_fence hop, decodeFence, h3]; rfl
theorem decode_fencei_of_funct3 (hop : opcodeOf raw = opFENCE) (h3 : funct3Of raw = 1#3) :
    decode raw = .ok (.fencei (rdOf raw) (rs1Of raw) (immIOf raw)) := by rw [decode_fence hop, decodeFence, h3]; rfl

/-- An instruction's record carries its operation. -/
theorem toRecord_operation (i : Instr) : i.toRecord.operation = i.operation := by cases i <;> rfl

/-- No instruction has the tag of the decoder fallthrough. -/
theorem operation_ne_invalid (i : Instr) : i.operation ≠ .INVALID := by cases i <;> nofun

/-- The operation of a word that decodes. -/
theorem operation_of_decode (h : decode raw = .ok i) : (decodeRecord raw).operation = i.operation := by
  rw [Machine.decodeRecord_of_decode h, toRecord_operation]

/-- The decoder rejects the words whose operation is `INVALID` (R104). -/
theorem exists_reject_of_invalid (h : (decodeRecord raw).operation = .INVALID) : ∃ e, decode raw = .error e := by
  cases hdecode : decode raw with
  | error e => exact ⟨e, rfl⟩
  | ok i => exact absurd ((operation_of_decode hdecode).symm.trans h) (operation_ne_invalid i)

/-- The two operations that decode and have no case (R230, R231). -/
def Instr.IsFence (i : Instr) : Prop := i.operation = .FENCE ∨ i.operation = .FENCEI

/-- A word has no case in the engine if the decoder rejects it or it decodes to a fence. -/
theorem unimplemented_cases (h : Unimplemented raw) :
    (∃ e, decode raw = .error e) ∨ ∃ i, decode raw = .ok i ∧ i.IsFence := by
  cases hdecode : decode raw with
  | error e => exact .inl ⟨e, rfl⟩
  | ok i =>
    rw [Unimplemented, operation_of_decode hdecode] at h
    obtain hfence | hfencei | hinvalid := h
    · exact .inr ⟨i, rfl, .inl hfence⟩
    · exact .inr ⟨i, rfl, .inr hfencei⟩
    · exact absurd hinvalid (operation_ne_invalid i)

/-- A word with a case in the engine decodes, and not to a fence. -/
theorem implemented_decodes (h : ¬Unimplemented raw) : ∃ i, decode raw = .ok i ∧ ¬i.IsFence := by
  cases hdecode : decode raw with
  | ok i =>
    rw [Unimplemented, operation_of_decode hdecode] at h
    exact ⟨i, rfl, fun hfence => h (hfence.imp_right .inl)⟩
  | error e =>
    refine absurd (.inr (.inr ?_)) h
    rw [decodeRecord_of_error hdecode]
    rfl

/-- A fence keeps every bit of its word (log entry 18). -/
theorem encode_of_decode_fence (hdecode : decode raw = .ok i) (hfence : i.IsFence) : encode i = raw := by
  obtain ⟨-, hword⟩ := encodesBackTo_of_decode hdecode
  cases i with
  | srai => obtain h | h := hfence <;> cases h
  | _ => exact hword

end Sys2Proof

namespace Sys2Proof.Machine

variable {s t : State} {i : Instr} {a : Word} {kind : AccessKind} {n k : Nat} {e : DecodeReject} {f : Fault}

/-! ### What an instruction answers, by its data access (R200, R210, R245) -/

/-- A load or store completes in bounds, and raises its condition out of bounds. -/
theorem exec_of_access (h : dataAccess i s = some (kind, a, n)) : ∃ t, exec i s =
    if a.toNat + n ≤ s.cfg.memSize then .next t else .fault (.memoryOutOfBounds kind a n s.pc) := by
  cases i with
  | lb | lh | lw | lbu | lhu => cases h; exact ⟨_, load_eq ..⟩
  | sb | sh | sw => cases h; exact ⟨_, store_eq ..⟩
  | _ => cases h

/-- FENCE and FENCEI raise the condition with their own word (R230, R231). -/
theorem exec_of_fence (h : i.IsFence) : exec i s = .fault (.unimplementedInstruction s.pc (encode i)) := by
  cases i with
  | fence | fencei => rfl
  | _ => obtain h | h := h <;> cases h

/-- Every other instruction completes. -/
theorem exec_of_no_access (haccess : dataAccess i s = none) (hfence : ¬i.IsFence) : ∃ t, exec i s = .next t := by
  cases i with
  | lb | lh | lw | lbu | lhu | sb | sh | sw => cases haccess
  | fence => exact absurd (.inl rfl) hfence
  | fencei => exact absurd (.inr rfl) hfence
  | _ => exact ⟨_, rfl⟩

/-- A data access out of bounds is raised. -/
theorem exec_of_access_out_of_bounds (h : dataAccess i s = some (kind, a, n)) (hout : s.cfg.memSize < a.toNat + n) :
    exec i s = .fault (.memoryOutOfBounds kind a n s.pc) := by
  obtain ⟨t, hexec⟩ := exec_of_access h
  rw [hexec, if_neg (Nat.not_le.2 hout)]

/-- Everything an instruction can answer, but for the state it completes with. -/
theorem exec_cases (i : Instr) (s : State) :
    (∃ t, exec i s = .next t) ∨ (i.IsFence ∧ exec i s = .fault (.unimplementedInstruction s.pc (encode i))) ∨
    ∃ kind a n, dataAccess i s = some (kind, a, n) ∧ s.cfg.memSize < a.toNat + n ∧
      exec i s = .fault (.memoryOutOfBounds kind a n s.pc) := by
  cases haccess : dataAccess i s with
  | none =>
    by_cases hfence : i.IsFence
    · exact .inr (.inl ⟨hfence, exec_of_fence hfence⟩)
    · exact .inl (exec_of_no_access haccess hfence)
  | some access =>
    obtain ⟨kind, a, n⟩ := access
    by_cases hbound : a.toNat + n ≤ s.cfg.memSize
    · obtain ⟨t, hexec⟩ := exec_of_access haccess
      exact .inl ⟨t, by rw [hexec, if_pos hbound]⟩
    · have hout := Nat.lt_of_not_le hbound
      exact .inr (.inr ⟨kind, a, n, rfl, hout, exec_of_access_out_of_bounds haccess hout⟩)

/-- The bounds condition of an instruction is that of its own data access (R242). -/
theorem exec_eq_outOfBounds_iff {p : Word} : exec i s = .fault (.memoryOutOfBounds kind a n p) ↔
    dataAccess i s = some (kind, a, n) ∧ s.cfg.memSize < a.toNat + n ∧ p = s.pc := by
  constructor
  · intro h
    obtain ⟨t, hexec⟩ | ⟨-, hexec⟩ | ⟨kind', a', n', haccess, hout, hexec⟩ := exec_cases i s <;>
      rw [hexec] at h <;> cases h
    exact ⟨haccess, hout, rfl⟩
  · rintro ⟨haccess, hout, rfl⟩
    exact exec_of_access_out_of_bounds haccess hout

/-- No data access is a fetch (R48). -/
theorem dataAccess_ne_fetch : dataAccess i s ≠ some (.fetch, a, n) := by cases i <;> nofun

/-! ### What a cycle answers, by its fetch and decode (R120, R121, R124) -/

theorem step_of_fetch_out_of_bounds (h : s.cfg.memSize < s.pc.toNat + 4) :
    step s = .fault (.memoryOutOfBounds .fetch s.pc 4 s.pc) := by
  rw [step, fetch_eq, if_neg (Nat.not_le.2 h)]
  rfl

theorem step_of_reject (hbound : s.pc.toNat + 4 ≤ s.cfg.memSize) (hreject : decode (wordAt s s.pc.toNat) = .error e) :
    step s = .fault (.unimplementedInstruction s.pc (wordAt s s.pc.toNat)) := by
  simp only [step, fetch_eq_ok_iff.2 ⟨hbound, rfl⟩, hreject]
  rfl

/-- Everything a cycle can answer: the fetch's condition, that of a word with no mapping, or what its instruction does. -/
theorem step_cases (s : State) :
    (s.cfg.memSize < s.pc.toNat + 4 ∧ step s = .fault (.memoryOutOfBounds .fetch s.pc 4 s.pc)) ∨
    step s = .fault (.unimplementedInstruction s.pc (wordAt s s.pc.toNat)) ∨ ∃ i, step s = exec i s := by
  by_cases hbound : s.pc.toNat + 4 ≤ s.cfg.memSize
  · cases hdecode : decode (wordAt s s.pc.toNat) with
    | error e => exact .inr (.inl (step_of_reject hbound hdecode))
    | ok i => exact .inr (.inr ⟨i, stepRunsTheDecodedInstruction s i hbound hdecode⟩)
  · have hout := Nat.lt_of_not_le hbound
    exact .inl ⟨hout, step_of_fetch_out_of_bounds hout⟩

/-- A word with no case in the engine is raised, with the pc and the word (R124, R241). -/
theorem step_of_unimplemented (hbound : s.pc.toNat + 4 ≤ s.cfg.memSize)
    (h : Unimplemented (wordAt s s.pc.toNat)) :
    step s = .fault (.unimplementedInstruction s.pc (wordAt s s.pc.toNat)) := by
  obtain ⟨e, hreject⟩ | ⟨i, hdecode, hfence⟩ := unimplemented_cases h
  · exact step_of_reject hbound hreject
  · rw [stepRunsTheDecodedInstruction s i hbound hdecode, exec_of_fence hfence, encode_of_decode_fence hdecode hfence]

/-! ### The statements about one cycle -/

/-- Settles O42: a fence raises its own word, which is the word it was decoded from. -/
theorem fencesAreFatal : Obligations.FencesAreFatal := by
  intro s raw hop
  have raises {i : Instr} (hdecode : decode raw = .ok i) (hfence : i.IsFence) :
      exec i s = .fault (.unimplementedInstruction s.pc raw) := by
    rw [exec_of_fence hfence, encode_of_decode_fence hdecode hfence]
  constructor
  · intro h3
    have hdecode := decode_fence_of_funct3 hop h3
    exact ⟨hdecode, raises hdecode (.inl rfl)⟩
  · intro h3
    have hdecode := decode_fencei_of_funct3 hop h3
    exact ⟨hdecode, raises hdecode (.inr rfl)⟩

/-- Settles O43: `INVALID` is one of the three operations with no case. -/
theorem invalidWordsAreFatal : Obligations.InvalidWordsAreFatal :=
  fun _ hbound hinvalid => step_of_unimplemented hbound (.inr (.inr hinvalid))

/-- Settles O15: the guard tests its index, and neither `exec_cases` nor `step_cases` has a case that raises it. -/
theorem registerGuardIsNeverReached : Obligations.RegisterGuardIsNeverReached := by
  have hexec (i : Instr) (s : State) : exec i s ≠ .fault .internalInvariant := by
    obtain ⟨t, h⟩ | ⟨-, h⟩ | ⟨kind, a, n, -, -, h⟩ := exec_cases i s <;> rw [h] <;> nofun
  refine ⟨readRegGuarded_toNat, fun s n hn => if_neg (Nat.not_lt.2 hn), hexec, fun s => ?_⟩
  obtain ⟨-, h⟩ | h | ⟨i, h⟩ := step_cases s <;> rw [h]
  · nofun
  · nofun
  · exact hexec i s

/-- Settles O44: the bounds conditions of `exec_cases`, and that no instruction raises the fetch's. -/
theorem memoryOutOfBoundsExactly : Obligations.MemoryOutOfBoundsExactly := by
  refine ⟨fun i s kind a n p => exec_eq_outOfBounds_iff, fun s a n p => ⟨fun h => ?_, ?_⟩⟩
  · obtain ⟨hout, hstep⟩ | hstep | ⟨i, hstep⟩ := step_cases s <;> rw [hstep] at h
    · cases h
      exact ⟨hout, rfl, rfl, rfl⟩
    · cases h
    · obtain ⟨haccess, -, -⟩ := exec_eq_outOfBounds_iff.1 h
      exact absurd haccess dataAccess_ne_fetch
  · rintro ⟨hout, rfl, rfl, rfl⟩
    exact step_of_fetch_out_of_bounds hout

/-- Settles O45: an instruction that is no fence completes unless its data access is out of bounds (`exec_cases`). -/
theorem fatalConditionsInOrder : Obligations.FatalConditionsInOrder := by
  intro s
  refine ⟨step_of_fetch_out_of_bounds, fun hbound => ⟨step_of_unimplemented hbound, fun himplemented => ?_⟩⟩
  obtain ⟨i, hdecode, hfence⟩ := implemented_decodes himplemented
  rw [stepRunsTheDecodedInstruction s i hbound hdecode]
  refine ⟨i, hdecode, fun kind a n haccess hout => exec_of_access_out_of_bounds haccess hout, fun hinside => ?_⟩
  obtain hnext | ⟨habs, -⟩ | ⟨kind, a, n, haccess, hout, -⟩ := exec_cases i s
  · exact hnext
  · exact absurd habs hfence
  · exact absurd (hinside kind a n haccess) (Nat.not_le.2 hout)

/-- Settles O46: neither `exec_cases` nor `step_cases` has a refusal. -/
theorem noCycleIsRefused : Obligations.NoCycleIsRefused := by
  intro s r
  obtain ⟨-, h⟩ | h | ⟨i, h⟩ := step_cases s <;> rw [h]
  · nofun
  · nofun
  · obtain ⟨t, h⟩ | ⟨-, h⟩ | ⟨kind, a, n, -, -, h⟩ := exec_cases i s <;> rw [h] <;> nofun

/-! ### The end of a run (R240, R277) -/

/-- A run that reaches a state whose cycle is fatal is over there: it answers the condition ever after, so a successful
end, which is a state it answers, comes no later. -/
theorem runIsOverAt_of_fault (hrun : core.run k s = .next t) (hfault : step t = .fault f) : RunIsOverAt k s f := by
  have hlonger (j : Nat) (hj : k < j) : core.run j s = .fault f := by
    obtain ⟨d, rfl⟩ := Nat.exists_eq_add_of_lt hj
    rw [Nat.add_assoc, core_run_add hrun]
    exact core_run_fault hfault d
  refine ⟨hlonger, fun _ _ ⟨j, hend, _⟩ => ⟨j, ?_, hend⟩⟩
  by_contra hj
  rw [hlonger j (Nat.lt_of_not_le hj)] at hend
  cases hend

/-- Settles O57: each ending condition is the answer of the cycle at the state reached. -/
theorem fatalConditionsEndTheRun : Obligations.FatalConditionsEndTheRun := by
  refine ⟨.inr (.inr (by decide)), fun s t k hrun => ⟨fun hout => ?_, fun hbound => ⟨fun h => ?_, ?_⟩⟩⟩
  · exact runIsOverAt_of_fault hrun (step_of_fetch_out_of_bounds hout)
  · exact runIsOverAt_of_fault hrun (step_of_unimplemented hbound h)
  · intro i kind a n hdecode haccess hout
    refine runIsOverAt_of_fault hrun ?_
    rw [stepRunsTheDecodedInstruction t i hbound hdecode]
    exact exec_of_access_out_of_bounds haccess hout

end Sys2Proof.Machine
end

section
/-! PROOFS. The statements of 70_reset_and_hazards.md: the state at creation and what the host's preparation changes of it
(R270, R273), and the loader's words (R274). A load that fits changes the memory alone, into the contents `writeWords`
gives (`loadWords_eq`), so its statement is about these contents. -/

open Sys2Proof.Claims

namespace Sys2Proof.Machine

variable {s : State}

/-! ### The preparation of the state (R273) -/

/-- A register write changes one register, and register 0 not at all. -/
theorem writesOnly_writeReg (s : State) (rd : RegIdx) (v : Word) : WritesOnly s (s.writeReg rd v) rd (· = v) :=
  writesOnly_writeReg_setPc rd v (s.writeReg rd v).pc rfl

/-- Settles O12: a preset is a register write, a loader store is a memory write, and setting the entry sets the pc. -/
theorem creationAndPreparationOfTheState : Obligations.CreationAndPreparationOfTheState := by
  refine ⟨fun cfg => ⟨readReg_created, fun a => rfl, rfl, rfl⟩,
    fun s r v => ⟨writesOnly_writeReg s r v, writeReg_pc s r v⟩, fun s t a w hload => ?_,
    fun s entry => ⟨rfl, fun r => readReg_setPc s r entry, fun a => rfl, rfl⟩⟩
  refine ⟨loadWord_pc hload, loadWord_readReg hload, ?_, fun hm k hk => memWrite_readByte hm hload hk, fun b hb => ?_⟩
  all_goals obtain ⟨-, rfl⟩ := memWrite_eq_ok_iff.1 hload
  · exact setMem_cfg s _
  · exact readByte_writeLE_outside 4 s.mem a.toNat b w hb

/-! ### The contents after consecutive words (R274) -/

/-- The memory with consecutive words written from `a` on, as the loader writes them. -/
def Memory.writeWords (m : Memory) (a : Nat) : List Word → Memory
  | [] => m
  | w :: ws => Memory.writeWords (m.writeLE a 4 w) (a + 4) ws

section contents

variable {m : Memory} {a size : Nat} {ws : List Word}

theorem writeWords_wf (hm : m.wf) : (m.writeWords a ws).wf := by
  induction ws generalizing m a with
  | nil => exact hm
  | cons w ws ih => exact ih (writeLE_wf 4 m a w hm)

theorem writeWords_within (hm : m.within size) (h : a + 4 * ws.length ≤ size) : (m.writeWords a ws).within size := by
  induction ws generalizing m a with
  | nil => exact hm
  | cons w ws ih =>
    rw [List.length_cons] at h
    exact ih (writeLE_within size 4 m a w hm (by omega)) (by omega)

theorem readByte_writeWords_outside {b : Nat} (h : b < a ∨ a + 4 * ws.length ≤ b) :
    (m.writeWords a ws).readByte b = m.readByte b := by
  induction ws generalizing m a with
  | nil => rfl
  | cons w ws ih =>
    rw [List.length_cons] at h
    rw [Memory.writeWords, ih (by omega), readByte_writeLE_outside 4 m a b w (by omega)]

/-- Word `k` is read back at its own address: the words after it lie above it. -/
theorem readLE_writeWords (hm : m.wf) {k : Nat} (hk : k < ws.length) :
    (m.writeWords a ws).readLE (a + 4 * k) 4 = ws[k] := by
  induction ws generalizing m a k with
  | nil => exact absurd hk (Nat.not_lt_zero k)
  | cons w ws ih =>
    cases k with
    | zero =>
      rw [Memory.writeWords, readLE_congr _ (m.writeLE a 4 w) 4 _ fun j hj => readByte_writeWords_outside (by omega)]
      exact readLE_writeLE_word m a w hm
    | succ k =>
      have haddr : a + 4 * (k + 1) = a + 4 + 4 * k := by omega
      rw [haddr]
      exact ih (writeLE_wf 4 m a w hm) (Nat.lt_of_succ_lt_succ hk)

end contents

/-! ### The loader (R274) -/

section loader

variable {a : Nat} {ws : List Word}

/-- The word at an address is the four-byte read there (R41, R44). -/
theorem wordAt_eq_readLE (s : State) (a : Nat) : wordAt s a = s.mem.readLE a 4 := (readLE_four s.mem a).symm

/-- A load that fits changes the memory alone. -/
theorem loadWords_eq (hsize : s.cfg.memSize ≤ 2 ^ 32) (h : a + 4 * ws.length ≤ s.cfg.memSize) :
    s.loadWords a ws = .ok (s.setMem (s.mem.writeWords a ws)) := by
  induction ws generalizing s a with
  | nil => rfl
  | cons w ws ih =>
    rw [List.length_cons] at h
    rw [loadWords_cons a w ws (by omega) hsize]
    exact ih hsize (by rw [setMem_cfg]; omega)

/-- A load that fits keeps the invariant: its cells stay canonical and below `MEM_SIZE`. -/
theorem setMem_writeWords_inv (hs : s.Inv) (h : a + 4 * ws.length ≤ s.cfg.memSize) :
    (s.setMem (s.mem.writeWords a ws)).Inv := by
  obtain ⟨hcfg, hwf, hwithin, hzero⟩ := hs
  exact ⟨hcfg, writeWords_wf hwf, writeWords_within hwithin h, hzero⟩

/-- A load that does not fit stops at the first word that passes `MEM_SIZE`, after the `(MEM_SIZE - a) / 4` that fit. -/
theorem loadWords_eq_error (hsize : s.cfg.memSize ≤ 2 ^ 32) (hne : ws ≠ [])
    (h : s.cfg.memSize < a + 4 * ws.length) : s.loadWords a ws =
      .error (.memoryOutOfBounds .store (BitVec.ofNat 32 (a + 4 * ((s.cfg.memSize - a) / 4))) 4 s.pc) := by
  induction ws generalizing s a with
  | nil => exact absurd rfl hne
  | cons w ws ih =>
    rw [List.length_cons] at h
    by_cases hfits : a + 4 ≤ s.cfg.memSize
    · have hplace : a + 4 + 4 * ((s.cfg.memSize - (a + 4)) / 4) = a + 4 * ((s.cfg.memSize - a) / 4) := by omega
      have hrest := ih (s := s.setMem (s.mem.writeLE a 4 w)) (a := a + 4) hsize
        (List.ne_nil_of_length_pos (by omega)) (by rw [setMem_cfg]; omega)
      rw [setMem_cfg, setMem_pc, hplace] at hrest
      rw [loadWords_cons a w ws hfits hsize, hrest]
    · have hplace : (s.cfg.memSize - a) / 4 = 0 := by omega
      rw [loadWords_cons_error a w ws (Nat.lt_of_not_le hfits), hplace, Nat.mul_zero, Nat.add_zero]

/-- A fetch at an address in memory answers the word there (R121). -/
theorem fetch_setEntry {raw : Word} (hsize : s.cfg.memSize ≤ 2 ^ 32) (h : a + 4 ≤ s.cfg.memSize)
    (hword : wordAt s a = raw) : (s.setEntry (BitVec.ofNat 32 a)).fetch = .ok raw := by
  have haddr : (BitVec.ofNat 32 a).toNat = a := by rw [BitVec.toNat_ofNat]; omega
  refine fetch_eq_ok_iff.2 ?_
  rw [State.setEntry, setPc_pc, haddr]
  exact ⟨h, hword⟩

end loader

/-- Settles O56: a load that fits is `loadWords_eq`, one that does not is `loadWords_eq_error`. -/
theorem loadedWordsAreFetched : Obligations.LoadedWordsAreFetched := by
  intro s a ws hs
  have ⟨⟨_, hsize⟩, hwf, _, _⟩ := hs
  refine ⟨fun hfits => ?_, loadWords_eq_error hsize⟩
  refine ⟨s.setMem (s.mem.writeWords a ws), loadWords_eq hsize hfits, setMem_writeWords_inv hs hfits, rfl, rfl,
    fun r => readReg_setMem s r _, fun k hk => ?_, fun b hb => readByte_writeWords_outside hb⟩
  have hword : wordAt (s.setMem (s.mem.writeWords a ws)) (a + 4 * k) = ws[k] :=
    (wordAt_eq_readLE ..).trans (readLE_writeWords hwf hk)
  exact ⟨hword, fetch_setEntry hsize (by rw [setMem_cfg]; omega) hword⟩

end Sys2Proof.Machine
end
